-- ==== Sys2Proof/Word.lean ====
section
/-! DEFINITION. The word and byte types of BERLEN.

`BUS_WIDTH = 32` (R11): every register is reached by one 32-bit access. A byte is 8 bits (R15). Every value is
unsigned (R15), and bit 0 is the least significant bit. -/

namespace Sys2Proof

/-- A 32-bit bus word (R11). -/
abbrev Word := BitVec 32

/-- A byte, `b[7:0]` (R15). -/
abbrev Byte := BitVec 8

end Sys2Proof
end

