-- ==== Sys2Proof/Config.lean ====
section
/-! DEFINITION. What the platform or the spec fixes for the whole life of the machine (R10 to R14).

The spec leaves one parameter open, `BASE_ADDR`; the others are constants it states. BERLEN has no free value: the
spec gives every command one definite result for every operand value. -/

namespace Sys2Proof

/-- The parameters of one placed BERLEN. `BASE_ADDR` is OPEN and must be a multiple of 64 (R10), so the window's
NUMBER is held and the address is computed from it: an unaligned placement cannot be written down. -/
structure Config where
  /-- Which 64-byte window of the host's address space the registers occupy. -/
  baseWindow : Nat
deriving DecidableEq, Repr

/-- `WINDOW_BYTES`: the register window is 64 bytes (R24, R50). -/
def windowBytes : Nat := 64

/-- `BASE_ADDR`, a multiple of 64 (R10). -/
def Config.baseAddr (c : Config) : Nat := windowBytes * c.baseWindow

/-- `MAX_LEN_OCTETS = 4`: the longest long form that is encoded or decoded (R12). -/
def maxLenOctets : Nat := 4

/-- `WIN_BYTES = 6`: how many bytes of the host's buffer the decode window holds (R13). -/
def winBytes : Nat := 6

end Sys2Proof
end

