-- ==== Sys2Proof/Syntax.lean ====
section
/-! DEFINITION. The commands of BERLEN: one constructor per row of spec/opcode_table.json.

A command is one 32-bit word written to `CMD` (R70). It takes no immediate and names no register: every operand comes
from a fixed register (R70, R83), so no constructor has an argument. The eleven ILLEGAL rows of the table are the
opcodes 0x0 and 0x6 to 0xF, which select no command but have a defined effect (R72); each is a constructor, so the
sixteen constructors are the sixteen values of `OP`. -/

namespace Sys2Proof

/-- The sixteen rows of the opcode table (R71). -/
inductive Instr where
  /-- TAG_PACK, `OP = 0x1` (R100). -/
  | tagPack
  /-- TAG_UNPACK, `OP = 0x2` (R101). -/
  | tagUnpack
  /-- LEN_ENCODE, `OP = 0x3` (R123). -/
  | lenEncode
  /-- LEN_SIZE, `OP = 0x4` (R124). -/
  | lenSize
  /-- LEN_DECODE, `OP = 0x5` (R126). -/
  | lenDecode
  /-- ILLEGAL, `OP = 0x0` (R72). -/
  | illegal0
  /-- ILLEGAL, `OP = 0x6` (R72). -/
  | illegal6
  /-- ILLEGAL, `OP = 0x7` (R72). -/
  | illegal7
  /-- ILLEGAL, `OP = 0x8` (R72). -/
  | illegal8
  /-- ILLEGAL, `OP = 0x9` (R72). -/
  | illegal9
  /-- ILLEGAL, `OP = 0xA` (R72). -/
  | illegalA
  /-- ILLEGAL, `OP = 0xB` (R72). -/
  | illegalB
  /-- ILLEGAL, `OP = 0xC` (R72). -/
  | illegalC
  /-- ILLEGAL, `OP = 0xD` (R72). -/
  | illegalD
  /-- ILLEGAL, `OP = 0xE` (R72). -/
  | illegalE
  /-- ILLEGAL, `OP = 0xF` (R72). -/
  | illegalF
deriving DecidableEq, Repr

end Sys2Proof
end

