-- ==== Sys2Proof/Machine/HostTypes.lean ====
section
/-! DEFINITION. What the host can do to BERLEN, as data: the register names, one bus access, one event at BERLEN's
pins, and one line of the host-access notation.

BERLEN takes no step of its own (R175): every step is a host access (R52, R53) or the reset input (R190). -/

namespace Sys2Proof.Machine

/-- The sixteen registers of the window, in the order of their offsets (R24). -/
inductive Reg where
  | cmd | status | tagfIn | tagIn | tagOut | tagfOut | lenIn | hdrOut0
  | hdrOut1 | hdrLen | sizeOut | bufLen | win0 | win1 | dlenOut | dconsOut
deriving DecidableEq, Repr

/-- The width of a bus access: 32 bits is the only one with a meaning, 8 and 16 bits are refused by name (R54). -/
inductive AccessWidth where
  | w8 | w16 | w32
deriving DecidableEq, Repr

/-- The direction of an access: `BusRead(off)` (R53) or `BusWrite(off, v)` (R52). -/
inductive BusOp where
  | read
  | write (v : Word)
deriving DecidableEq, Repr

/-- One access the host issues, at an address of the host's address space. Its offset is `addr - BASE_ADDR` (R10). -/
structure Access where
  width : AccessWidth
  addr : Nat
  op : BusOp
deriving DecidableEq, Repr

/-- One event at BERLEN's pins: a host access, or the platform asserting reset between two accesses (R190). -/
inductive HostEvent where
  | access (a : Access)
  | reset
deriving DecidableEq, Repr

/-- The `<reg>` of a line: a register name, or a hex offset (R85). -/
inductive RegRef where
  | name (r : Reg)
  | offset (off : Nat)
deriving DecidableEq, Repr

/-- One line of the host-access notation (R85) or one of its pseudo-instructions (R86). The operands of `TAGF` are
naturals: a value out of range is refused, not truncated (R86). -/
inductive HostLine where
  /-- `WR <reg>, <value>` -/
  | wr (r : RegRef) (v : Word)
  /-- `RD <reg>` -/
  | rd (r : RegRef)
  /-- `CMD <command>` -/
  | cmd (i : Instr)
  /-- `TAGF c, f, k` -/
  | tagf (c f k : Nat)
  /-- `WIN b0, b1, …`, missing trailing bytes being 0 -/
  | win (bs : List Byte)
deriving DecidableEq, Repr

end Sys2Proof.Machine
end

