-- ==== Sys2Proof/WellFormed.lean ====
section
/-! DEFINITION. Which instructions, accesses and notation lines are well formed.

No instruction has an operand, so every term of `Instr` is well formed. The checks with content are those of an
access (R54) and of the host-access notation (R86). -/

namespace Sys2Proof

/-- Every instruction is well formed: the command word holds nothing but `OP`, and each of the sixteen values of `OP`
is a row of the table (R70, R71, R72). -/
def Instr.wellFormed : Instr → Bool
  | .tagPack | .tagUnpack | .lenEncode | .lenSize | .lenDecode => true
  | .illegal0 | .illegal6 | .illegal7 | .illegal8 | .illegal9 => true
  | .illegalA | .illegalB | .illegalC | .illegalD | .illegalE | .illegalF => true

/-- The instructions the notation `CMD <command>` can name: the five commands, no illegal opcode (R86). -/
def Instr.hasNotation : Instr → Bool
  | .tagPack | .tagUnpack | .lenEncode | .lenSize | .lenDecode => true
  | .illegal0 | .illegal6 | .illegal7 | .illegal8 | .illegal9 => false
  | .illegalA | .illegalB | .illegalC | .illegalD | .illegalE | .illegalF => false

namespace Machine

/-- An access has a meaning when it is 32 bits wide, aligned and within the window (R54). Since `BASE_ADDR` is a
multiple of 64 (R10), the address is aligned exactly when its offset is. -/
def Access.wellFormed (c : Config) (a : Access) : Bool :=
  a.width == .w32 && a.addr % 4 == 0 && c.baseAddr ≤ a.addr && a.addr < c.baseAddr + windowBytes

/-- A reset is always admitted; an access is admitted when it is well formed (R178, R190). -/
def HostEvent.wellFormed (c : Config) : HostEvent → Bool
  | .access a => a.wellFormed c
  | .reset => true

/-- The lines the assembler accepts: `TAGF` with `c` 0 to 3, `f` 0 to 1 and `k` 0 to 31, `WIN` with at most six
bytes, `CMD` with one of the five commands (R86). -/
def HostLine.wellFormed : HostLine → Bool
  | .wr _ _ => true
  | .rd _ => true
  | .cmd i => i.hasNotation
  | .tagf c f k => c < 4 && f < 2 && k < 32
  | .win bs => bs.length ≤ winBytes

end Machine

end Sys2Proof
end

