-- ==== Sys2Proof/Decode.lean ====
section
/-! DEFINITION. The command word: its decoder, total on any bytes, and its encoder (R70 to R74).

`OP` is `CMD[3:0]`; `CMD[31:4]` is not decoded (R70, R73). All sixteen values of `OP` are rows of the opcode table, so
every 32-bit word decodes. The only thing that is rejected is a byte string that is not one 32-bit word (R74). -/

namespace Sys2Proof

/-- The value of `OP` of each row of the opcode table (R71, R72). -/
def Instr.opcode : Instr → BitVec 4
  | .illegal0 => 0x0
  | .tagPack => 0x1
  | .tagUnpack => 0x2
  | .lenEncode => 0x3
  | .lenSize => 0x4
  | .lenDecode => 0x5
  | .illegal6 => 0x6
  | .illegal7 => 0x7
  | .illegal8 => 0x8
  | .illegal9 => 0x9
  | .illegalA => 0xA
  | .illegalB => 0xB
  | .illegalC => 0xC
  | .illegalD => 0xD
  | .illegalE => 0xE
  | .illegalF => 0xF

/-- `OP` selects the command (R71, R72). A 4-bit number has no value beyond the fifteen written out but 0xF. -/
def decodeOp (op : BitVec 4) : Instr :=
  match op.toNat with
  | 0x0 => .illegal0
  | 0x1 => .tagPack
  | 0x2 => .tagUnpack
  | 0x3 => .lenEncode
  | 0x4 => .lenSize
  | 0x5 => .lenDecode
  | 0x6 => .illegal6
  | 0x7 => .illegal7
  | 0x8 => .illegal8
  | 0x9 => .illegal9
  | 0xA => .illegalA
  | 0xB => .illegalB
  | 0xC => .illegalC
  | 0xD => .illegalD
  | 0xE => .illegalE
  | _ => .illegalF

/-- The field `OP`, bits [3:0] of the command word; bits [31:4] are ignored (R70, R73). -/
def commandOp (v : Word) : BitVec 4 := v.extractLsb' 0 4

/-- The command a write of `v` to `CMD` runs (R52, R71). -/
def decodeWord (v : Word) : Instr := decodeOp (commandOp v)

/-- Why a byte string is no command. -/
inductive DecodeError where
  /-- The string is not the four bytes of one 32-bit word (R74). -/
  | notOneWord (nbytes : Nat)
deriving DecidableEq, Repr

/-- The word whose byte `i` stands in bits `[8i+7 : 8i]` (R57). -/
def wordOfLanes (b0 b1 b2 b3 : Byte) : Word := b3 ++ b2 ++ b1 ++ b0

/-- The four bytes of a word, the lowest lane first (R57). -/
def lanesOfWord (v : Word) : List Byte :=
  [v.extractLsb' 0 8, v.extractLsb' 8 8, v.extractLsb' 16 8, v.extractLsb' 24 8]

/-- The command in a byte string, the word's lowest lane first. Every command is one 32-bit word, none is longer or
shorter (R74). -/
def decode : List Byte → Except DecodeError Instr
  | [b0, b1, b2, b3] => .ok (decodeWord (wordOfLanes b0 b1 b2 b3))
  | bs => .error (.notOneWord bs.length)

/-- The command word of an instruction, with 0 in the ignored bits as R73 asks of software. -/
def encode (i : Instr) : Word := i.opcode.setWidth 32

/-- The bytes of an instruction's command word. -/
def encodeBytes (i : Instr) : List Byte := lanesOfWord (encode i)

/-- The word of an opcode-table row whose low `nbits` bits are given and whose other bits are 0. -/
def tableWord (nbits w : Nat) : Word := BitVec.ofNat 32 (w % 2 ^ nbits)

/-- What the decoder reads from an instruction of the opcode table: its word laid out in bytes, decoded. No command
is longer than one word (R74). -/
def decodeTableWord (nbits w : Nat) : Option Instr :=
  if nbits ≤ 32 then (decode (lanesOfWord (tableWord nbits w))).toOption else none

end Sys2Proof
end

