-- ==== Sys2Proof/Machine/State.lean ====
section
/-! DEFINITION. The state of BERLEN, the reasons a step can stop, and the state after reset.

The architectural state is the sixteen registers of R24 restricted to their stored fields (R20, R43), held here at
exactly the widths of those fields: a bit the spec does not store has no place in the model. `CMD` stores nothing
(R25). BERLEN has no general-purpose register, program counter, condition flag, memory, queue or hidden state
(R20 to R23, R44, R51), no mode, saved register, pending bit or counter (R169 to R177). -/

namespace Sys2Proof.Machine

/-- The codes of `STATUS.ERR` (R84). `bufferTooSmall` is named and numbered and never raised (R166). -/
inductive ErrCode where
  | ok | truncatedBuffer | bufferTooSmall | unsupportedEncoding | lengthOverflow | illegalCommand
deriving DecidableEq, Repr

/-- The three sub-fields of a tag, each exactly as wide as the source's range (R27, R75). -/
structure TagFields where
  cls : BitVec 2
  form : BitVec 1
  code : BitVec 5
deriving DecidableEq, Repr

/-- The stored fields of the registers (R24 to R40). -/
structure Regs where
  /-- `STATUS.ERR[3:0]` (R26) -/
  err : BitVec 4
  /-- `STATUS.LASTOP[11:8]` (R26) -/
  lastop : BitVec 4
  /-- `TAGF_IN` (R27) -/
  tagfIn : TagFields
  /-- `TAG_IN.TAG[7:0]` (R28) -/
  tagIn : BitVec 8
  /-- `TAG_OUT.TAG[7:0]` (R29) -/
  tagOut : BitVec 8
  /-- `TAGF_OUT` (R30) -/
  tagfOut : TagFields
  /-- `LEN_IN.LEN[31:0]` (R31) -/
  lenIn : BitVec 32
  /-- `HDR_OUT0`, the header bytes `H0` to `H3`, `H0` in bits [7:0] (R32) -/
  hdrOut0 : BitVec 32
  /-- `HDR_OUT1.H4[7:0]` (R33) -/
  hdrOut1 : BitVec 8
  /-- `HDR_LEN.HLEN[2:0]` (R34) -/
  hdrLen : BitVec 3
  /-- `SIZE_OUT.SIZE[2:0]` (R35) -/
  sizeOut : BitVec 3
  /-- `BUF_LEN.BLEN[31:0]` (R36) -/
  bufLen : BitVec 32
  /-- `WIN0`, the window bytes `W0` to `W3`, `W0` in bits [7:0] (R37) -/
  win0 : BitVec 32
  /-- `WIN1`, the window bytes `W4` in bits [7:0] and `W5` in bits [15:8] (R38) -/
  win1 : BitVec 16
  /-- `DLEN_OUT.DLEN[31:0]` (R39) -/
  dlenOut : BitVec 32
  /-- `DCONS_OUT.DCONS[2:0]` (R40) -/
  dconsOut : BitVec 3
deriving DecidableEq, Repr

/-- BERLEN and what stands at its pins. `regs` is the whole architectural state (R20). The other three fields are the
MODEL's own: `cfg` the open parameter, which no step changes (R10); `inputs` the events still to come, in the order
the host and the platform issue them (R60, R190); `reads` the values the host's reads have returned, the newest first
(R53). -/
structure State where
  cfg : Config
  regs : Regs
  inputs : List HostEvent
  reads : List Word
deriving DecidableEq, Repr

/-- The reasons BERLEN stops with a fault. There is none: no admitted access makes it trap or hang, and an error of a
command is a value of `STATUS.ERR` (R160, R178). -/
inductive Fault where
deriving DecidableEq, Repr

/-- The reasons the model gives an event no meaning. -/
inductive Refusal where
  /-- Raised by an arm of `exec` whose instruction has no meaning yet; no arm raises it. Safe: the run stops. -/
  | notModelled (mnemonic : String)
  /-- Raised by an 8-bit or 16-bit access: what the bus does with it the platform decides (R54). Safe: the model stops
  where a platform might go on. -/
  | narrowAccess (w : AccessWidth)
  /-- Raised by an access with `off[1:0] ≠ 0` (R54). Safe: the model stops where a platform might go on. -/
  | misalignedAccess (addr : Nat)
  /-- Raised by an access outside `BASE_ADDR .. BASE_ADDR + 0x3F`, which BERLEN does not decode (R54, R59). Safe: the
  model stops where a platform might go on. -/
  | outOfWindow (addr : Nat)
deriving DecidableEq, Repr

/-- Every register at its reset value, which is 0 (R24, R190). -/
def Regs.reset : Regs where
  err := 0
  lastop := 0
  tagfIn := ⟨0, 0, 0⟩
  tagIn := 0
  tagOut := 0
  tagfOut := ⟨0, 0, 0⟩
  lenIn := 0
  hdrOut0 := 0
  hdrOut1 := 0
  hdrLen := 0
  sizeOut := 0
  bufLen := 0
  win0 := 0
  win1 := 0
  dlenOut := 0
  dconsOut := 0

/-- The machine right after power-on or reset, before any host access (R190, R191). DESIGN CHOICE (notes/assumptions/1):
the placement, which the spec leaves open, is window 0. -/
def State.reset : State where
  cfg := ⟨0⟩
  regs := Regs.reset
  inputs := []
  reads := []

end Sys2Proof.Machine
end

