-- ==== Sys2Proof/Machine/Flags.lean ====
section
/-! DEFINITION. The only status BERLEN reports: `STATUS.ERR` and `STATUS.LASTOP`.

There are no condition flags (R23). Every command writes both fields, exactly once, and no command reads them
(R23, R161). -/

namespace Sys2Proof.Machine

/-- The value of `STATUS.ERR` for each code (R84). -/
def ErrCode.bits : ErrCode → BitVec 4
  | .ok => 0x0
  | .truncatedBuffer => 0x1
  | .bufferTooSmall => 0x2
  | .unsupportedEncoding => 0x3
  | .lengthOverflow => 0x4
  | .illegalCommand => 0x5

/-- The status write that ends every command: `x[STATUS].ERR <- e ; x[STATUS].LASTOP <- op` (R161). -/
def Regs.report (r : Regs) (e : ErrCode) (op : BitVec 4) : Regs :=
  { r with err := e.bits, lastop := op }

end Sys2Proof.Machine
end

