-- ==== Sys2Proof/Machine/Operands.lean ====
section
/-! DEFINITION. The operand forms: how the fields of a register sit in its 32 bits, and the byte views the rules use.

No command has an addressing mode or an immediate (R70, R83): an operand is a register, read through its layout. -/

namespace Sys2Proof.Machine

/-- The value of a `TAGF` register: `c | (f << 8) | (k << 16)`, each field zero-extended (R76). -/
def TagFields.toWord (t : TagFields) : Word :=
  t.cls.setWidth 32 ||| (t.form.setWidth 32 <<< 8) ||| (t.code.setWidth 32 <<< 16)

/-- The fields of a word in the `TAGF` layout: `CLASS[1:0]`, `FORM[8]`, `CODE[20:16]` (R27). -/
def TagFields.ofWord (v : Word) : TagFields where
  cls := v.extractLsb' 0 2
  form := v.extractLsb' 8 1
  code := v.extractLsb' 16 5

/-- The value of `STATUS`: `ERR[3:0]` and `LASTOP[11:8]` (R26). -/
def statusWord (err lastop : BitVec 4) : Word :=
  err.setWidth 32 ||| (lastop.setWidth 32 <<< 8)

/-- The window view `W[0..5]` (R41). -/
def Regs.window (r : Regs) : List Byte :=
  [r.win0.extractLsb' 0 8, r.win0.extractLsb' 8 8, r.win0.extractLsb' 16 8, r.win0.extractLsb' 24 8,
    r.win1.extractLsb' 0 8, r.win1.extractLsb' 8 8]

/-- The header view `H[0..4]` (R42). -/
def Regs.header (r : Regs) : List Byte :=
  [r.hdrOut0.extractLsb' 0 8, r.hdrOut0.extractLsb' 8 8, r.hdrOut0.extractLsb' 16 8,
    r.hdrOut0.extractLsb' 24 8, r.hdrOut1]

end Sys2Proof.Machine
end

