-- ==== Sys2Proof/Machine/Ops.lean ====
section
/-! DEFINITION. The named operations over the register window and the state.

BERLEN reaches no memory (R17, R51), so there are no memory operations. It takes no exception and returns from none
(R160, R169): where another machine would enter a handler, a command writes its result registers and `STATUS` and ends
normally, and `finish` is that one ending. -/

namespace Sys2Proof.Machine

/-! ## The register window -/

/-- The registers in the order of their offsets (R24). -/
def Reg.all : List Reg :=
  [.cmd, .status, .tagfIn, .tagIn, .tagOut, .tagfOut, .lenIn, .hdrOut0,
    .hdrOut1, .hdrLen, .sizeOut, .bufLen, .win0, .win1, .dlenOut, .dconsOut]

/-- The offset of each register from `BASE_ADDR` (R24). -/
def Reg.offset : Reg → Nat
  | .cmd => 0x00
  | .status => 0x04
  | .tagfIn => 0x08
  | .tagIn => 0x0C
  | .tagOut => 0x10
  | .tagfOut => 0x14
  | .lenIn => 0x18
  | .hdrOut0 => 0x1C
  | .hdrOut1 => 0x20
  | .hdrLen => 0x24
  | .sizeOut => 0x28
  | .bufLen => 0x2C
  | .win0 => 0x30
  | .win1 => 0x34
  | .dlenOut => 0x38
  | .dconsOut => 0x3C

/-- The listed fields of each register, as the mask of their bits (R24). `CMD` stores nothing (R25). -/
def Reg.fieldMask : Reg → Word
  | .cmd => 0x00000000
  | .status => 0x00000F0F
  | .tagfIn => 0x001F0103
  | .tagIn => 0x000000FF
  | .tagOut => 0x000000FF
  | .tagfOut => 0x001F0103
  | .lenIn => 0xFFFFFFFF
  | .hdrOut0 => 0xFFFFFFFF
  | .hdrOut1 => 0x000000FF
  | .hdrLen => 0x00000007
  | .sizeOut => 0x00000007
  | .bufLen => 0xFFFFFFFF
  | .win0 => 0xFFFFFFFF
  | .win1 => 0x0000FFFF
  | .dlenOut => 0xFFFFFFFF
  | .dconsOut => 0x00000007

/-- The operand registers, access `RW` (R24, R56). -/
def Reg.isOperand : Reg → Bool
  | .tagfIn | .tagIn | .lenIn | .bufLen | .win0 | .win1 => true
  | .cmd | .status | .tagOut | .tagfOut | .hdrOut0 | .hdrOut1 | .hdrLen | .sizeOut | .dlenOut | .dconsOut => false

/-- The read-only registers, access `R`: the results and `STATUS` (R24). -/
def Reg.isReadOnly : Reg → Bool
  | .status | .tagOut | .tagfOut | .hdrOut0 | .hdrOut1 | .hdrLen | .sizeOut | .dlenOut | .dconsOut => true
  | .cmd | .tagfIn | .tagIn | .lenIn | .bufLen | .win0 | .win1 => false

/-- The register at an offset, if there is one (R24, R59). -/
def regAt (off : Nat) : Option Reg := Reg.all.find? (fun r => r.offset == off)

/-- The register BERLEN decodes at an address; it decodes none outside `BASE_ADDR .. BASE_ADDR + 0x3F` (R59). -/
def decodeAddress (c : Config) (addr : Nat) : Option Reg :=
  if c.baseAddr ≤ addr then regAt (addr - c.baseAddr) else none

/-- The address of a register (R10). -/
def Reg.addr (c : Config) (r : Reg) : Nat := c.baseAddr + r.offset

/-- `x[NAME]`: the register as R24 lays it out, 0 in every bit outside its listed fields and 0 for `CMD` (R43, R53). -/
def Regs.read (rs : Regs) : Reg → Word
  | .cmd => 0
  | .status => statusWord rs.err rs.lastop
  | .tagfIn => rs.tagfIn.toWord
  | .tagIn => rs.tagIn.setWidth 32
  | .tagOut => rs.tagOut.setWidth 32
  | .tagfOut => rs.tagfOut.toWord
  | .lenIn => rs.lenIn
  | .hdrOut0 => rs.hdrOut0
  | .hdrOut1 => rs.hdrOut1.setWidth 32
  | .hdrLen => rs.hdrLen.setWidth 32
  | .sizeOut => rs.sizeOut.setWidth 32
  | .bufLen => rs.bufLen
  | .win0 => rs.win0
  | .win1 => rs.win1.setWidth 32
  | .dlenOut => rs.dlenOut
  | .dconsOut => rs.dconsOut.setWidth 32

/-! ## One setter per written register -/

def Regs.setTagfIn (r : Regs) (t : TagFields) : Regs := { r with tagfIn := t }
def Regs.setTagIn (r : Regs) (t : Byte) : Regs := { r with tagIn := t }
def Regs.setLenIn (r : Regs) (v : Word) : Regs := { r with lenIn := v }
def Regs.setBufLen (r : Regs) (v : Word) : Regs := { r with bufLen := v }
def Regs.setWin0 (r : Regs) (v : Word) : Regs := { r with win0 := v }
def Regs.setWin1 (r : Regs) (v : BitVec 16) : Regs := { r with win1 := v }

/-- The result write of TAG_PACK (R100). -/
def Regs.setTagOut (r : Regs) (t : Byte) : Regs := { r with tagOut := t }

/-- The result write of TAG_UNPACK (R101). -/
def Regs.setTagfOut (r : Regs) (t : TagFields) : Regs := { r with tagfOut := t }

/-- The result write of LEN_ENCODE: the five header bytes and their count (R123). -/
def Regs.setHeader (r : Regs) (h0 : Word) (h1 : Byte) (n : BitVec 3) : Regs :=
  { r with hdrOut0 := h0, hdrOut1 := h1, hdrLen := n }

/-- The result write of LEN_SIZE (R124). -/
def Regs.setSizeOut (r : Regs) (n : BitVec 3) : Regs := { r with sizeOut := n }

/-- The result write of LEN_DECODE (R126). -/
def Regs.setDecoded (r : Regs) (len : Word) (cons : BitVec 3) : Regs :=
  { r with dlenOut := len, dconsOut := cons }

/-- `BusWrite(off, v)` to a register other than `CMD`: an operand register stores the bits of its fields, a read-only
register ignores the write (R52). `CMD` itself stores nothing (R25). -/
def Regs.store (rs : Regs) (r : Reg) (v : Word) : Regs :=
  match r with
  | .tagfIn => rs.setTagfIn (TagFields.ofWord v)
  | .tagIn => rs.setTagIn (v.extractLsb' 0 8)
  | .lenIn => rs.setLenIn v
  | .bufLen => rs.setBufLen v
  | .win0 => rs.setWin0 v
  | .win1 => rs.setWin1 (v.extractLsb' 0 16)
  | .cmd | .status | .tagOut | .tagfOut | .hdrOut0 | .hdrOut1 | .hdrLen | .sizeOut | .dlenOut | .dconsOut => rs

/-! ## The state -/

def State.setRegs (s : State) (r : Regs) : State := { s with regs := r }
def State.setInputs (s : State) (es : List HostEvent) : State := { s with inputs := es }

/-- The value a read returns to the host. -/
def State.pushRead (s : State) (v : Word) : State := { s with reads := v :: s.reads }

/-- The end of every command: the result registers as `r` holds them, then `STATUS`, and the machine goes on
(R160, R161). -/
def finish (s : State) (r : Regs) (e : ErrCode) (op : BitVec 4) : Host.Outcome State Fault Refusal :=
  .next (s.setRegs (r.report e op))

/-! ## Which accesses have a meaning -/

/-- The register an access reaches, or the name of the reason it is refused (R54). DESIGN CHOICE
(notes/assumptions/5): an access with several of the reasons is refused by the first in the order of R54's list. -/
def checkAccess (c : Config) (a : Access) : Except Refusal Reg :=
  if a.width ≠ .w32 then .error (.narrowAccess a.width)
  else if a.addr % 4 ≠ 0 then .error (.misalignedAccess a.addr)
  else
    match decodeAddress c a.addr with
    | some r => .ok r
    | none => .error (.outOfWindow a.addr)

/-- The aligned 32-bit access to a register. -/
def Reg.access (c : Config) (r : Reg) (op : BusOp) : HostEvent := .access ⟨.w32, r.addr c, op⟩

/-! ## What R83 says of each instruction -/

/-- The operand registers an instruction reads (R83). -/
def instrOperandRegs : Instr → List Reg
  | .tagPack => [.tagfIn]
  | .tagUnpack => [.tagIn]
  | .lenEncode | .lenSize => [.lenIn]
  | .lenDecode => [.bufLen, .win0, .win1]
  | .illegal0 | .illegal6 | .illegal7 | .illegal8 | .illegal9 | .illegalA
  | .illegalB | .illegalC | .illegalD | .illegalE | .illegalF => []

/-- The registers an instruction writes (R83). -/
def instrResultRegs : Instr → List Reg
  | .tagPack => [.tagOut, .status]
  | .tagUnpack => [.tagfOut, .status]
  | .lenEncode => [.hdrOut0, .hdrOut1, .hdrLen, .status]
  | .lenSize => [.sizeOut, .status]
  | .lenDecode => [.dlenOut, .dconsOut, .status]
  | .illegal0 | .illegal6 | .illegal7 | .illegal8 | .illegal9 | .illegalA
  | .illegalB | .illegalC | .illegalD | .illegalE | .illegalF => [.status]

end Sys2Proof.Machine
end

