-- ==== Sys2Proof/Machine/Illegal.lean ====
section
/-! DEFINITION. The eleven opcodes that select no command (R72, R165).

A `CMD` write with such an `OP` sets `STATUS` and nothing else. It is not a trap. -/

namespace Sys2Proof.Machine

/-- `x[STATUS].ERR <- ILLEGAL_COMMAND ; x[STATUS].LASTOP <- OP`, and no other register changes (R72). -/
def illegalCommand (op : BitVec 4) (s : State) : Host.Outcome State Fault Refusal :=
  finish s s.regs .illegalCommand op

/-- `OP = 0x0` (R72). -/
def execIllegal0 (s : State) : Host.Outcome State Fault Refusal := illegalCommand 0x0 s

/-- `OP = 0x6` (R72). -/
def execIllegal6 (s : State) : Host.Outcome State Fault Refusal := illegalCommand 0x6 s

/-- `OP = 0x7` (R72). -/
def execIllegal7 (s : State) : Host.Outcome State Fault Refusal := illegalCommand 0x7 s

/-- `OP = 0x8` (R72). -/
def execIllegal8 (s : State) : Host.Outcome State Fault Refusal := illegalCommand 0x8 s

/-- `OP = 0x9` (R72). -/
def execIllegal9 (s : State) : Host.Outcome State Fault Refusal := illegalCommand 0x9 s

/-- `OP = 0xA` (R72). -/
def execIllegalA (s : State) : Host.Outcome State Fault Refusal := illegalCommand 0xA s

/-- `OP = 0xB` (R72). -/
def execIllegalB (s : State) : Host.Outcome State Fault Refusal := illegalCommand 0xB s

/-- `OP = 0xC` (R72). -/
def execIllegalC (s : State) : Host.Outcome State Fault Refusal := illegalCommand 0xC s

/-- `OP = 0xD` (R72). -/
def execIllegalD (s : State) : Host.Outcome State Fault Refusal := illegalCommand 0xD s

/-- `OP = 0xE` (R72). -/
def execIllegalE (s : State) : Host.Outcome State Fault Refusal := illegalCommand 0xE s

/-- `OP = 0xF` (R72). -/
def execIllegalF (s : State) : Host.Outcome State Fault Refusal := illegalCommand 0xF s

end Sys2Proof.Machine
end

