-- ==== Sys2Proof/Machine/Length.lean ====
section
/-! DEFINITION. The length codec: the primitives of R17, the pure functions `hdrsize`, `enc` and `dec`, and the commands
LEN_ENCODE, LEN_SIZE and LEN_DECODE (spec/41_length.md). -/

namespace Sys2Proof.Machine

/-! ## Primitives (R17) -/

/-- The highest set bit of `v` among bits `k-1 .. 0`, counted from 1, or 0 if none is set. -/
def bitlenBelow (v : Word) : Nat → Nat
  | 0 => 0
  | k + 1 => if v.getLsbD k then k + 1 else bitlenBelow v k

/-- `bitlen(v)`: the number of bits of `v` up to its highest set bit, with `bitlen(0) = 0`. -/
def bitlen (v : Word) : Nat := bitlenBelow v 32

/-- `ceil_div(a, b) = (a + b - 1) / b` with integer division. -/
def ceilDiv (a b : Nat) : Nat := (a + b - 1) / b

/-- `BE(s)`, the sum over `i` of `s[i] * 256^(len(s)-1-i)`, with `BE([]) = 0`. -/
def beValue : List Byte → Nat
  | [] => 0
  | b :: s => b.toNat * 256 ^ s.length + beValue s

/-- `BEbytes(v, k)`: the `k`-byte big-endian sequence of `v`, most significant byte first. -/
def beBytes (v : Word) : Nat → List Byte
  | 0 => []
  | k + 1 => (v >>> (8 * k)).setWidth 8 :: beBytes v k

/-! ## The length header -/

/-- The number of value bytes of the long form of `L` (R122). -/
def octets (L : Word) : Nat := ceilDiv (bitlen L) 8

/-- `hdrsize(L)`: the number of bytes of the length header of `L` (R121). -/
def hdrsize (L : Word) : Nat := if L.toNat ≤ 127 then 1 else 1 + octets L

/-- `enc(L)`: the length header of `L` in wire order (R122). -/
def enc (L : Word) : List Byte :=
  if L.toNat ≤ 127 then [L.extractLsb' 0 8]
  else (0x80 ||| BitVec.ofNat 8 (octets L)) :: beBytes L (octets L)

/-- `dec(BLEN, W)`: the decoded length and the header bytes consumed, or the code of the first check that applies, in
the order of R125's steps. `W` is the six bytes of the window; `W[0]`, the tag, is not read (R131). -/
def dec (blen : Word) (W : List Byte) : Except ErrCode (Nat × Nat) :=
  if blen.toNat < 2 then .error .truncatedBuffer
  else
    let h := W.getD 1 0
    if h.getLsbD 7 = false then .ok (h.toNat, 1)
    else
      let n := (h.extractLsb' 0 7).toNat
      if n = 0 then .error .unsupportedEncoding
      else if blen.toNat - 2 < n then .error .truncatedBuffer
      else if n > maxLenOctets then .error .lengthOverflow
      else .ok (beValue ((W.drop 2).take n), 1 + n)

/-- The five header bytes `p`: `s` with zero bytes after it (R123). -/
def padHeader (s : List Byte) : List Byte := s ++ List.replicate (5 - s.length) 0

/-! ## The commands -/

/-- LEN_ENCODE (R123). -/
def execLenEncode (s : State) : Host.Outcome State Fault Refusal :=
  let e := enc s.regs.lenIn
  let p := padHeader e
  let h0 := wordOfLanes (p.getD 0 0) (p.getD 1 0) (p.getD 2 0) (p.getD 3 0)
  finish s (s.regs.setHeader h0 (p.getD 4 0) (BitVec.ofNat 3 e.length)) .ok 0x3

/-- LEN_SIZE (R124). -/
def execLenSize (s : State) : Host.Outcome State Fault Refusal :=
  finish s (s.regs.setSizeOut (BitVec.ofNat 3 (hdrsize s.regs.lenIn))) .ok 0x4

/-- LEN_DECODE (R126). A failed decode writes 0 to both results (R162 to R164, R168). -/
def execLenDecode (s : State) : Host.Outcome State Fault Refusal :=
  match dec s.regs.bufLen s.regs.window with
  | .ok (len, cons) => finish s (s.regs.setDecoded (BitVec.ofNat 32 len) (BitVec.ofNat 3 cons)) .ok 0x5
  | .error e => finish s (s.regs.setDecoded 0 0) e 0x5

end Sys2Proof.Machine
end

