-- ==== Sys2Proof/Machine/Tag.lean ====
section
/-! DEFINITION. The tag packer and unpacker: TAG_PACK and TAG_UNPACK (spec/40_tag.md). -/

namespace Sys2Proof.Machine

/-- `tag = (class << 6) | (form << 5) | code` (R75). -/
def packTag (f : TagFields) : Byte :=
  (f.cls.setWidth 8 <<< 6) ||| (f.form.setWidth 8 <<< 5) ||| f.code.setWidth 8

/-- `class <- t[7:6] ; form <- t[5] ; code <- t[4:0]` (R101). -/
def unpackTag (t : Byte) : TagFields where
  cls := t.extractLsb' 6 2
  form := t.extractLsb' 5 1
  code := t.extractLsb' 0 5

/-- TAG_PACK (R100). -/
def execTagPack (s : State) : Host.Outcome State Fault Refusal :=
  finish s (s.regs.setTagOut (packTag s.regs.tagfIn)) .ok 0x1

/-- TAG_UNPACK (R101). -/
def execTagUnpack (s : State) : Host.Outcome State Fault Refusal :=
  finish s (s.regs.setTagfOut (unpackTag s.regs.tagIn)) .ok 0x2

end Sys2Proof.Machine
end

