-- ==== Sys2Proof/Machine/Dispatch.lean ====
section
/-! DEFINITION. What each instruction does: one arm per constructor of `Instr` (R71). -/

namespace Sys2Proof.Machine

def exec (i : Instr) (s : State) : Host.Outcome State Fault Refusal :=
  match i with
  | .tagPack => Sys2Proof.Machine.execTagPack s
  | .tagUnpack => Sys2Proof.Machine.execTagUnpack s
  | .lenEncode => Sys2Proof.Machine.execLenEncode s
  | .lenSize => Sys2Proof.Machine.execLenSize s
  | .lenDecode => Sys2Proof.Machine.execLenDecode s
  | .illegal0 => Sys2Proof.Machine.execIllegal0 s
  | .illegal6 => Sys2Proof.Machine.execIllegal6 s
  | .illegal7 => Sys2Proof.Machine.execIllegal7 s
  | .illegal8 => Sys2Proof.Machine.execIllegal8 s
  | .illegal9 => Sys2Proof.Machine.execIllegal9 s
  | .illegalA => Sys2Proof.Machine.execIllegalA s
  | .illegalB => Sys2Proof.Machine.execIllegalB s
  | .illegalC => Sys2Proof.Machine.execIllegalC s
  | .illegalD => Sys2Proof.Machine.execIllegalD s
  | .illegalE => Sys2Proof.Machine.execIllegalE s
  | .illegalF => Sys2Proof.Machine.execIllegalF s

end Sys2Proof.Machine
end

