-- ==== Sys2Proof/Machine/Bus.lean ====
section
/-! DEFINITION. The host's accesses and the reset input (spec/20_memory.md, R190): what one event does.

There is no instruction fetch and no program counter (R22): a command runs when the host writes `CMD`, and the order of
commands is the order of the host's writes (R60). -/

namespace Sys2Proof.Machine

/-- `BusRead`: the host gets the register's value and no register changes (R53, R56). -/
def busRead (r : Reg) (s : State) : Host.Outcome State Fault Refusal :=
  .next (s.pushRead (s.regs.read r))

/-- `BusWrite`: a write to `CMD` runs one command to completion, a write to an operand register stores, a write to a
read-only register changes nothing (R52, R55, R56). -/
def busWrite (r : Reg) (v : Word) (s : State) : Host.Outcome State Fault Refusal :=
  match r with
  | .cmd => exec (decodeWord v) s
  | .status | .tagfIn | .tagIn | .tagOut | .tagfOut | .lenIn | .hdrOut0 | .hdrOut1 | .hdrLen | .sizeOut
  | .bufLen | .win0 | .win1 | .dlenOut | .dconsOut => .next (s.setRegs (s.regs.store r v))

/-- One host access, refused by name if it has no meaning (R52 to R54). -/
def performAccess (a : Access) (s : State) : Host.Outcome State Fault Refusal :=
  match checkAccess s.cfg a with
  | .error e => .refused e
  | .ok r =>
    match a.op with
    | .read => busRead r s
    | .write v => busWrite r v s

/-- One event at the pins. Reset sets every register to its reset value (R190); the placement and the host's side of
the bus are not registers, so it leaves them. -/
def performEvent (e : HostEvent) (s : State) : Host.Outcome State Fault Refusal :=
  match e with
  | .access a => performAccess a s
  | .reset => .next (s.setRegs Regs.reset)

/-- The next event takes effect, one at a time, in the order issued (R60). With none to come, nothing happens: BERLEN
takes no step of its own (R175) and its registers keep their values (R177). -/
def performNext (s : State) : Host.Outcome State Fault Refusal :=
  match s.inputs with
  | [] => .next s
  | e :: rest => performEvent e (s.setInputs rest)

/-- The host's write of a command word to `CMD` (R70). -/
def commandWrite (c : Config) (v : Word) : HostEvent := Reg.cmd.access c (.write v)

end Sys2Proof.Machine
end

