-- ==== Sys2Proof/Machine/Step.lean ====
section
/-! DEFINITION. One step of the machine, and where its next command comes from. -/

namespace Sys2Proof.Machine

/-- One step: the next event at BERLEN's pins (R60, R178). -/
def step (s : State) : Host.Outcome State Fault Refusal := performNext s

/-- The state whose next event is the host's write of the given command word to `CMD`. -/
def State.withFetchWord (s : State) (nbits w : Nat) : State :=
  s.setInputs (commandWrite s.cfg (tableWord nbits w) :: s.inputs)

end Sys2Proof.Machine
end

