-- ==== Sys2Proof/Machine/HostLines.lean ====
section
/-! DEFINITION. The host-access notation: each line's bus transactions (R85, R86). -/

namespace Sys2Proof.Machine

/-- The offset a line's `<reg>` stands for (R85). -/
def RegRef.off : RegRef → Nat
  | .name r => r.offset
  | .offset o => o

/-- The pairs of offset and transaction a line expands to (R85, R86); none if the assembler refuses the line. -/
def assemble (l : HostLine) : Option (List (Nat × BusOp)) :=
  if l.wellFormed then
    match l with
    | .wr r v => some [(r.off, .write v)]
    | .rd r => some [(r.off, .read)]
    | .cmd i => some [(Reg.cmd.offset, .write (encode i))]
    | .tagf c f k =>
      some [(Reg.tagfIn.offset, .write (BitVec.ofNat 32 c ||| (BitVec.ofNat 32 f <<< 8) ||| (BitVec.ofNat 32 k <<< 16)))]
    | .win bs =>
      some [(Reg.win0.offset, .write (wordOfLanes (bs.getD 0 0) (bs.getD 1 0) (bs.getD 2 0) (bs.getD 3 0))),
        (Reg.win1.offset, .write (wordOfLanes (bs.getD 4 0) (bs.getD 5 0) 0 0))]
  else none

/-- The 32-bit access a pair stands for on a placed BERLEN (R85). -/
def transaction (c : Config) (p : Nat × BusOp) : HostEvent := .access ⟨.w32, c.baseAddr + p.1, p.2⟩

/-- The events of a whole program of lines, or none if some line is refused. -/
def assembleAll (c : Config) : List HostLine → Option (List HostEvent)
  | [] => some []
  | l :: ls =>
    match assemble l, assembleAll c ls with
    | some ps, some es => some (ps.map (transaction c) ++ es)
    | _, _ => none

end Sys2Proof.Machine
end

