-- ==== Sys2Proof/Safety.lean ====
section
/-! DEFINITION. What counts as a safe run: the invariants of every reachable state (R45) and the runs the host's duties
keep from being refused (R54, R178). -/

namespace Sys2Proof.Machine

/-- The six invariants of R45. -/
abbrev Regs.Inv (r : Regs) : Prop :=
  r.hdrLen.toNat ≤ 5 ∧ r.sizeOut.toNat ≤ 5 ∧ r.dconsOut.toNat ≤ 5 ∧
  (r.err = 0 ∨ r.err = 1 ∨ r.err = 3 ∨ r.err = 4 ∨ r.err = 5) ∧
  (r.dconsOut = 0 → r.dlenOut = 0) ∧
  (1 ≤ r.hdrLen.toNat → ∀ b ∈ r.header.drop r.hdrLen.toNat, b = 0)

/-- The header registers hold what they hold after a reset, or the padded header of some length (R34, R123). -/
def Regs.HeaderSound (r : Regs) : Prop :=
  (r.hdrLen = 0 ∧ r.header = [0, 0, 0, 0, 0]) ∨
  ∃ L : Word, r.hdrLen.toNat = hdrsize L ∧ r.header = padHeader (enc L)

/-- Every event still to come has a meaning (R54, R190). -/
def State.inputsAdmitted (s : State) : Bool := s.inputs.all (fun e => e.wellFormed s.cfg)

/-- `k` steps of the machine. -/
def runSteps (k : Nat) (s : State) : Host.Outcome State Fault Refusal := Host.Core.run Sys2Proof.core k s

/-- The event is a read access. -/
def HostEvent.isRead : HostEvent → Bool
  | .access a => a.op == .read
  | .reset => false

/-- The same event for a BERLEN placed elsewhere: an access keeps its offset from `BASE_ADDR` (R10). -/
def HostEvent.relocate (c d : Config) : HostEvent → HostEvent
  | .access a => .access { a with addr := a.addr - c.baseAddr + d.baseAddr }
  | .reset => .reset

/-- The machine before any host access, placed in any window (R10, R190). -/
def State.powerOn (c : Config) : State := { State.reset with cfg := c }

end Sys2Proof.Machine
end

