-- ==== Sys2Proof/Certificates/Slice0/Obligations.lean ====
section
/-! DEFINITION. The statements for the provers. Each docstring names the rule of spec/ its statement formalises.

Every statement about an instruction quantifies over ALL states: operands, results, status and placement are
arbitrary, in states no run reaches as well. `{ s.regs with … }` says the frame: every stored field of every register
that is not named keeps its value. BERLEN has no memory (R51), no program counter (R22) and no condition flag (R23). -/

open Sys2Proof Sys2Proof.Machine

/-! ## Reset, invariants and runs -/

/-- R190: every reset value is 0, power-on gives it, and so does the reset input, an event of its own between two
accesses. -/
def Obligations.ResetClearsEveryRegister : Prop :=
  State.reset.regs = ⟨0, 0, ⟨0, 0, 0⟩, 0, 0, ⟨0, 0, 0⟩, 0, 0, 0, 0, 0, 0, 0, 0, 0, 0⟩ ∧
  ∀ (s : State) (rest : List HostEvent), ∃ t, step { s with inputs := .reset :: rest } = .next t ∧
    t.regs = State.reset.regs ∧ ∀ r : Reg, t.regs.read r = 0

/-- What the host can tell after reset, and what a command issued right after reset gives: R192, which the spec
derives from R190 and R125. -/
def Obligations.CommandsRightAfterReset : Prop :=
  (∀ s : State, s.regs = State.reset.regs →
    (∀ r : Reg, s.regs.read r = 0) ∧
    (∃ t, exec .tagPack s = .next t ∧ t.regs.tagOut = 0x00) ∧
    (∃ t, exec .lenEncode s = .next t ∧ t.regs.header = [0, 0, 0, 0, 0] ∧ t.regs.hdrLen = 1) ∧
    (∃ t, exec .lenSize s = .next t ∧ t.regs.sizeOut = 1) ∧
    (∃ t, exec .lenDecode s = .next t ∧ t.regs.err = 0x1)) ∧
  (∀ i : Instr, i.hasNotation = true → i.opcode ≠ 0) ∧
  ∀ s : State,
    (∃ t, exec .lenEncode s = .next t ∧ t.regs.hdrLen ≠ 0) ∧
    (∃ t, exec .lenSize s = .next t ∧ t.regs.sizeOut ≠ 0) ∧
    (∃ t, exec .lenDecode s = .next t ∧ (t.regs.err = 0 → t.regs.dconsOut ≠ 0))

/-- R45, which the spec derives from R24, R43, R123, R124 and R126, at reset. -/
def Obligations.InvariantHoldsAtReset : Prop := State.reset.regs.Inv ∧ ∀ c : Config, (State.powerOn c).regs.Inv

/-- R45 (derived by the spec) for one step, from every state that meets it and for every event at the pins. -/
def Obligations.StepKeepsInvariant : Prop :=
  ∀ s t : State, s.regs.Inv → step s = .next t → t.regs.Inv

/-- The six invariants that the spec derives in R45 hold of every reachable state, whatever the host does and wherever
BERLEN is placed. -/
def Obligations.InvariantOfEveryReachableState : Prop :=
  ∀ (c : Config) (es : List HostEvent) (k : Nat) (t : State),
    runSteps k { State.powerOn c with inputs := es } = .next t →
      t.regs.hdrLen.toNat ∈ [0, 1, 2, 3, 4, 5] ∧ t.regs.sizeOut.toNat ∈ [0, 1, 2, 3, 4, 5] ∧
      t.regs.dconsOut.toNat ∈ [0, 1, 2, 3, 4, 5] ∧ t.regs.err.toNat ∈ [0, 1, 3, 4, 5] ∧
      (t.regs.dconsOut = 0 → t.regs.dlenOut = 0) ∧
      ∀ h : Nat, t.regs.hdrLen.toNat = h → 1 ≤ h → ∀ j, h ≤ j → j ≤ 4 → t.regs.header[j]? = some 0

/-- R123 for one step, with what R34 derives from it: the header registers always hold their reset values or the
padded header of a length. -/
def Obligations.StepKeepsHeaderSound : Prop :=
  State.reset.regs.HeaderSound ∧
  ∀ s t : State, s.regs.HeaderSound → step s = .next t → t.regs.HeaderSound

/-- R178: every aligned 32-bit access within the window gives a next state, every other access is refused, and there
is no fault. -/
def Obligations.StepOutcomes : Prop :=
  (∀ (s : State) (a : Access) (rest : List HostEvent), a.width = .w32 → a.addr % 4 = 0 →
    s.cfg.baseAddr ≤ a.addr → a.addr < s.cfg.baseAddr + 0x40 →
      ∃ t, step { s with inputs := .access a :: rest } = .next t) ∧
  (∀ (s : State) (a : Access) (rest : List HostEvent),
    ¬ (a.width = .w32 ∧ a.addr % 4 = 0 ∧ s.cfg.baseAddr ≤ a.addr ∧ a.addr < s.cfg.baseAddr + 0x40) →
      ∃ why, step { s with inputs := .access a :: rest } = .refused why) ∧
  ∀ (s : State) (f : Fault), step s ≠ .fault f

/-- R60 and R178 for a whole run: a host that issues only accesses with a meaning is never stopped, and gets one value
for each of its reads. Resets may stand among the accesses (R190). That a reset leaves the placement, the events still
to come and the values already read is the model's choice (notes/assumptions/6). -/
def Obligations.AdmittedRunCompletes : Prop :=
  ∀ s : State, s.inputsAdmitted = true →
    ∃ t, runSteps s.inputs.length s = .next t ∧ t.inputs = [] ∧ t.cfg = s.cfg ∧
      t.reads.length = s.reads.length + s.inputs.countP HostEvent.isRead

/-- R60 for the operand registers: a read returns what the last write left there, whatever other accesses and commands
the host issued in between. -/
def Obligations.ReadReturnsLastWrite : Prop :=
  ∀ (s : State) (r : Reg) (v : Word) (mid : List HostEvent), r.isOperand = true →
    (∀ e ∈ mid, ∃ (q : Reg) (op : BusOp), e = q.access s.cfg op ∧ (q = r → op = .read)) →
    ∃ t, runSteps (mid.length + 2)
        { s with inputs := r.access s.cfg (.write v) :: (mid ++ [r.access s.cfg .read]) } = .next t ∧
      t.reads.head? = some (v &&& r.fieldMask)

/-- R10: a claim holds for every placement: the same accesses to a BERLEN in another window leave the same registers
and return the same values. Resets may stand among the accesses; what a reset leaves is the model's choice
(notes/assumptions/6). -/
def Obligations.PlacementDoesNotMatter : Prop :=
  ∀ (s t : State) (c : Config) (k : Nat), s.inputsAdmitted = true → runSteps k s = .next t →
    ∃ u, runSteps k { s with cfg := c, inputs := s.inputs.map (HostEvent.relocate s.cfg c) } = .next u ∧
      u.regs = t.regs ∧ u.reads = t.reads

/-- R175, R177 (notes/assumptions/4, the model's choice): with no event to come, nothing changes. -/
def Obligations.NothingHappensWithoutTheHost : Prop :=
  ∀ s : State, s.inputs = [] → step s = .next s

/-! ## The command word -/

/-- R55: a write to `CMD` and the command it runs are one step. The step adds to `exec` only that the write is no
longer to come. -/
def Obligations.StepRunsDecodedCommand : Prop :=
  ∀ (s : State) (b0 b1 b2 b3 : Byte) (i : Instr) (rest : List HostEvent),
    decode [b0, b1, b2, b3] = .ok i → i.wellFormed = true →
      step { s with inputs := .access ⟨.w32, s.cfg.baseAddr, .write (b3 ++ b2 ++ b1 ++ b0)⟩ :: rest } =
        exec i { s with inputs := rest }

/-- The command word placed for the next step is the one the step runs. -/
def Obligations.FetchedWordIsRun : Prop :=
  ∀ (s : State) (nbits w : Nat) (i : Instr), decodeTableWord nbits w = some i →
    step (s.withFetchWord nbits w) = exec i s

/-- R71 with R72's illegal opcodes: `OP`, the low four bits, selects the command. -/
def Obligations.OpcodeMap : Prop :=
  ∀ v : Word,
    (v.toNat % 16 = 0x0 → decodeWord v = .illegal0) ∧ (v.toNat % 16 = 0x1 → decodeWord v = .tagPack) ∧
    (v.toNat % 16 = 0x2 → decodeWord v = .tagUnpack) ∧ (v.toNat % 16 = 0x3 → decodeWord v = .lenEncode) ∧
    (v.toNat % 16 = 0x4 → decodeWord v = .lenSize) ∧ (v.toNat % 16 = 0x5 → decodeWord v = .lenDecode) ∧
    (v.toNat % 16 = 0x6 → decodeWord v = .illegal6) ∧ (v.toNat % 16 = 0x7 → decodeWord v = .illegal7) ∧
    (v.toNat % 16 = 0x8 → decodeWord v = .illegal8) ∧ (v.toNat % 16 = 0x9 → decodeWord v = .illegal9) ∧
    (v.toNat % 16 = 0xA → decodeWord v = .illegalA) ∧ (v.toNat % 16 = 0xB → decodeWord v = .illegalB) ∧
    (v.toNat % 16 = 0xC → decodeWord v = .illegalC) ∧ (v.toNat % 16 = 0xD → decodeWord v = .illegalD) ∧
    (v.toNat % 16 = 0xE → decodeWord v = .illegalE) ∧ (v.toNat % 16 = 0xF → decodeWord v = .illegalF)

/-- R73: a value in `CMD[31:4]` has the effect of 0 there. -/
def Obligations.UpperCommandBitsIgnored : Prop :=
  ∀ (s : State) (v : Word) (rest : List HostEvent),
    step { s with inputs := .access ⟨.w32, s.cfg.baseAddr + 0x00, .write v⟩ :: rest } =
      step { s with inputs := .access ⟨.w32, s.cfg.baseAddr + 0x00, .write (v &&& 0x0000000F)⟩ :: rest }

/-- Decoding and encoding agree: each well-formed instruction is read back from its bytes, whatever stands in the
ignored bits; the bytes of a command hold no other instruction's opcode; and a string that is not one word is rejected
by name (R70, R73, R74). -/
def Obligations.DecodeEncodeAgree : Prop :=
  (∀ i : Instr, i.wellFormed = true → decode (encodeBytes i) = .ok i) ∧
  (∀ (i : Instr) (ignored : BitVec 28), i.wellFormed = true →
    decode (lanesOfWord (ignored ++ i.opcode)) = .ok i) ∧
  (∀ (b0 b1 b2 b3 : Byte) (i : Instr), decode [b0, b1, b2, b3] = .ok i → b0.toNat % 16 = i.opcode.toNat) ∧
  ∀ bs : List Byte, bs.length ≠ 4 → decode bs = .error (.notOneWord bs.length)

/-- Words of the opcode table, bit by bit from R70 and R71. -/
def Obligations.KnownCommandWords : Prop :=
  decodeWord 0b00000000000000000000000000000001#32 = .tagPack ∧
  decodeWord 0b00000000000000000000000000000010#32 = .tagUnpack ∧
  decodeWord 0b00000000000000000000000000010011#32 = .lenEncode ∧
  decodeWord 0b11111111111111111111111111110100#32 = .lenSize ∧
  decodeWord 0b10000000000000000000000000000101#32 = .lenDecode ∧
  decodeWord 0b00000000000000000000000000000000#32 = .illegal0 ∧
  decodeWord 0b00000000000000000000000000000110#32 = .illegal6 ∧
  decodeWord 0b00000000000000000000000000001111#32 = .illegalF

/-! ## Every command -/

/-- R161, R178: every command completes, in every state, and writes both fields of `STATUS`. -/
def Obligations.EveryCommandReportsStatus : Prop :=
  ∀ (i : Instr) (s : State), ∃ t, exec i s = .next t ∧ t.regs.lastop = i.opcode ∧
    (i = .tagPack ∨ i = .tagUnpack ∨ i = .lenEncode ∨ i = .lenSize → t.regs.err = 0x0) ∧
    (i = .lenDecode → ∀ len cons, dec s.regs.bufLen s.regs.window = .ok (len, cons) → t.regs.err = 0x0) ∧
    (i = .lenDecode → ∀ e, dec s.regs.bufLen s.regs.window = .error e →
      t.regs.err = e.bits ∧ (t.regs.err = 0x1 ∨ t.regs.err = 0x3 ∨ t.regs.err = 0x4)) ∧
    (i.hasNotation = false → t.regs.err = 0x5)

/-- R23: every command writes both fields of `STATUS` and reads neither: what stood there before makes no difference.
-/
def Obligations.NoCommandReadsStatus : Prop :=
  ∀ (i : Instr) (s : State) (e l : BitVec 4), ∃ t, exec i s = .next t ∧
    exec i { s with regs := { s.regs with err := e, lastop := l } } = .next t

/-- R83, the column of writes: a command changes no register that the table does not list for it. -/
def Obligations.CommandsWriteOnlyTheirResults : Prop :=
  ∀ (i : Instr) (s : State), ∃ t, exec i s = .next t ∧ t.cfg = s.cfg ∧ t.inputs = s.inputs ∧ t.reads = s.reads ∧
    ∀ r : Reg, r ∉ instrResultRegs i → t.regs.read r = s.regs.read r

/-- R83, the column of reads: what a command writes depends on nothing but its operand registers. -/
def Obligations.CommandsReadOnlyTheirOperands : Prop :=
  ∀ (i : Instr) (s u : State), (∀ r ∈ instrOperandRegs i, s.regs.read r = u.regs.read r) →
    ∃ t w, exec i s = .next t ∧ exec i u = .next w ∧ ∀ r ∈ instrResultRegs i, t.regs.read r = w.regs.read r

/-- R166: no command ever reports `BUFFER_TOO_SMALL`, code 2, in any state. -/
def Obligations.BufferTooSmallNeverRaised : Prop :=
  ∀ (i : Instr) (s : State), ∃ t, exec i s = .next t ∧ t.regs.err ≠ 0x2

/-- R72, R165: each of the eleven illegal opcodes sets `STATUS` and changes nothing else. -/
def Obligations.IllegalOpcodesOnlySetStatus : Prop :=
  ∀ s : State,
    exec .illegal0 s = .next { s with regs := { s.regs with err := 0x5, lastop := 0x0 } } ∧
    exec .illegal6 s = .next { s with regs := { s.regs with err := 0x5, lastop := 0x6 } } ∧
    exec .illegal7 s = .next { s with regs := { s.regs with err := 0x5, lastop := 0x7 } } ∧
    exec .illegal8 s = .next { s with regs := { s.regs with err := 0x5, lastop := 0x8 } } ∧
    exec .illegal9 s = .next { s with regs := { s.regs with err := 0x5, lastop := 0x9 } } ∧
    exec .illegalA s = .next { s with regs := { s.regs with err := 0x5, lastop := 0xA } } ∧
    exec .illegalB s = .next { s with regs := { s.regs with err := 0x5, lastop := 0xB } } ∧
    exec .illegalC s = .next { s with regs := { s.regs with err := 0x5, lastop := 0xC } } ∧
    exec .illegalD s = .next { s with regs := { s.regs with err := 0x5, lastop := 0xD } } ∧
    exec .illegalE s = .next { s with regs := { s.regs with err := 0x5, lastop := 0xE } } ∧
    exec .illegalF s = .next { s with regs := { s.regs with err := 0x5, lastop := 0xF } }

/-! ## The tag packer and unpacker -/

/-- R100 with R75: TAG_PACK puts class in bits [7:6], form in bit 5 and code in bits [4:0], and changes nothing but
`TAG_OUT` and `STATUS`. -/
def Obligations.TagPackResult : Prop :=
  Instr.tagPack.opcode = 0x1 ∧
  ∀ s : State, ∃ t, exec .tagPack s = .next t ∧
    t.regs.tagOut.toNat =
      s.regs.tagfIn.cls.toNat * 64 + s.regs.tagfIn.form.toNat * 32 + s.regs.tagfIn.code.toNat ∧
    t = { s with regs := { s.regs with tagOut := t.regs.tagOut, err := 0x0, lastop := 0x1 } }

/-- R101: TAG_UNPACK splits the tag into its three sub-fields, which read in the layout of R76, and changes nothing
but `TAGF_OUT` and `STATUS`. -/
def Obligations.TagUnpackResult : Prop :=
  Instr.tagUnpack.opcode = 0x2 ∧
  ∀ s : State, ∃ t, exec .tagUnpack s = .next t ∧
    t.regs.tagfOut.cls.toNat = s.regs.tagIn.toNat / 64 ∧
    t.regs.tagfOut.form.toNat = s.regs.tagIn.toNat / 32 % 2 ∧
    t.regs.tagfOut.code.toNat = s.regs.tagIn.toNat % 32 ∧
    (t.regs.read .tagfOut).toNat = t.regs.tagfOut.cls.toNat + t.regs.tagfOut.form.toNat * 256 +
      t.regs.tagfOut.code.toNat * 65536 ∧
    t = { s with regs := { s.regs with tagfOut := t.regs.tagfOut, err := 0x0, lastop := 0x2 } }

/-- Unpacking the packed tag gives the three sub-fields back: R102, which the spec derives from R100 and R101. -/
def Obligations.TagPackThenUnpack : Prop :=
  ∀ s : State, ∃ t u, exec .tagPack s = .next t ∧
    exec .tagUnpack { t with regs := { t.regs with tagIn := t.regs.tagOut } } = .next u ∧
    u.regs.tagfOut = s.regs.tagfIn ∧ u.regs.read .tagfOut = s.regs.read .tagfIn

/-- Packing the unpacked fields gives the byte back, and packing is a bijection: R103, which the spec derives from
R100 and R101. -/
def Obligations.TagUnpackThenPack : Prop :=
  (∀ s : State, ∃ t u, exec .tagUnpack s = .next t ∧
    exec .tagPack { t with regs := { t.regs with tagfIn := t.regs.tagfOut } } = .next u ∧
    u.regs.tagOut = s.regs.tagIn) ∧
  Function.Bijective packTag

/-! ## The length codec -/

/-- R17: `BE` is the sum the spec writes, and `BEbytes` is its inverse on `k` bytes. -/
def Obligations.BigEndianPrimitives : Prop :=
  (∀ bs : List Byte, beValue bs =
    ∑ j ∈ Finset.range bs.length, (bs.getD j 0).toNat * 256 ^ (bs.length - 1 - j)) ∧
  (∀ (v : Word) (k : Nat), (beBytes v k).length = k ∧ beValue (beBytes v k) = v.toNat % 256 ^ k) ∧
  ∀ (v : Word) (k : Nat), bitlen v ≤ k ↔ v.toNat < 2 ^ k

/-- The size of the length header, as the formula and as the table: R121, which the spec derives from R122. -/
def Obligations.HeaderSizeTable : Prop :=
  ∀ L : Word,
    (L.toNat ≤ 127 → hdrsize L = 1) ∧ (128 ≤ L.toNat → hdrsize L = 1 + (bitlen L + 7) / 8) ∧
    (0x80 ≤ L.toNat → L.toNat ≤ 0xFF → hdrsize L = 2) ∧
    (0x100 ≤ L.toNat → L.toNat ≤ 0xFFFF → hdrsize L = 3) ∧
    (0x10000 ≤ L.toNat → L.toNat ≤ 0xFFFFFF → hdrsize L = 4) ∧
    (0x1000000 ≤ L.toNat → hdrsize L = 5)

/-- R122, with the minimality of R81: the encoding is one byte up to 127, and above that `0x80 | k` and the `k` bytes
of the shortest big-endian form. -/
def Obligations.EncodingIsMinimal : Prop :=
  ∀ L : Word,
    (enc L).length = hdrsize L ∧
    (L.toNat ≤ 127 → enc L = [BitVec.ofNat 8 L.toNat]) ∧
    (128 ≤ L.toNat → ∃ (k : Nat) (first : Byte) (more : List Byte),
      1 ≤ k ∧ k ≤ 4 ∧ k = (bitlen L + 7) / 8 ∧ enc L = (0x80 ||| BitVec.ofNat 8 k) :: first :: more ∧
      (first :: more).length = k ∧ beValue (first :: more) = L.toNat ∧ first ≠ 0 ∧
      256 ^ (k - 1) ≤ L.toNat ∧ L.toNat < 256 ^ k)

/-- R123 with R42: LEN_ENCODE leaves the header in wire order with zero bytes after it and its length in `HDR_LEN`,
and changes nothing but these and `STATUS`. -/
def Obligations.LenEncodeResult : Prop :=
  Instr.lenEncode.opcode = 0x3 ∧
  ∀ s : State, ∃ t, exec .lenEncode s = .next t ∧
    t.regs.header = enc s.regs.lenIn ++ List.replicate (5 - (enc s.regs.lenIn).length) 0 ∧
    t.regs.hdrLen.toNat = (enc s.regs.lenIn).length ∧
    t = { s with regs := { s.regs with
      hdrOut0 := t.regs.hdrOut0, hdrOut1 := t.regs.hdrOut1, hdrLen := t.regs.hdrLen, err := 0x0, lastop := 0x3 } }

/-- R124: LEN_SIZE writes the header's size, 1 to 5, and changes nothing but `SIZE_OUT` and `STATUS`. -/
def Obligations.LenSizeResult : Prop :=
  Instr.lenSize.opcode = 0x4 ∧
  ∀ s : State, ∃ t, exec .lenSize s = .next t ∧
    t.regs.sizeOut.toNat = hdrsize s.regs.lenIn ∧ 1 ≤ t.regs.sizeOut.toNat ∧ t.regs.sizeOut.toNat ≤ 5 ∧
    t = { s with regs := { s.regs with sizeOut := t.regs.sizeOut, err := 0x0, lastop := 0x4 } }

/-- The size and the encoded length agree, and the host's `MarshalLen` fits 33 bits and not always 32: R132, which the
spec derives from R121 to R124. -/
def Obligations.SizeAgreesWithEncode : Prop :=
  (∀ s : State, ∃ t u, exec .lenSize s = .next t ∧ exec .lenEncode s = .next u ∧
    t.regs.sizeOut = u.regs.hdrLen ∧ t.regs.sizeOut.toNat = hdrsize s.regs.lenIn ∧
    u.regs.hdrLen.toNat = (enc s.regs.lenIn).length) ∧
  (∀ L : Word, 1 + hdrsize L + L.toNat < 2 ^ 33) ∧ ∃ L : Word, 2 ^ 32 ≤ 1 + hdrsize L + L.toNat

/-- R125: the outcome of `dec` for every window and buffer length, check by check. -/
def Obligations.DecodeChecksInOrder : Prop :=
  ∀ (B : Word) (w0 w1 w2 w3 w4 w5 : Byte),
    let W := [w0, w1, w2, w3, w4, w5]
    (B.toNat < 2 → dec B W = .error .truncatedBuffer) ∧
    (2 ≤ B.toNat → w1.toNat < 0x80 → dec B W = .ok (w1.toNat, 1)) ∧
    (2 ≤ B.toNat → w1.toNat = 0x80 → dec B W = .error .unsupportedEncoding) ∧
    (2 ≤ B.toNat → 0x80 < w1.toNat → B.toNat < w1.toNat - 0x80 + 2 → dec B W = .error .truncatedBuffer) ∧
    (0x85 ≤ w1.toNat → w1.toNat - 0x80 + 2 ≤ B.toNat → dec B W = .error .lengthOverflow) ∧
    (w1.toNat = 0x81 → 3 ≤ B.toNat → dec B W = .ok (w2.toNat, 2)) ∧
    (w1.toNat = 0x82 → 4 ≤ B.toNat → dec B W = .ok (w2.toNat * 256 + w3.toNat, 3)) ∧
    (w1.toNat = 0x83 → 5 ≤ B.toNat → dec B W = .ok (w2.toNat * 65536 + w3.toNat * 256 + w4.toNat, 4)) ∧
    (w1.toNat = 0x84 → 6 ≤ B.toNat →
      dec B W = .ok (w2.toNat * 16777216 + w3.toNat * 65536 + w4.toNat * 256 + w5.toNat, 5))

/-- R126: LEN_DECODE writes what `dec` gives, losing nothing to the registers' widths, zeros and the code on an error,
and changes nothing but `DLEN_OUT`, `DCONS_OUT` and `STATUS`. -/
def Obligations.LenDecodeResult : Prop :=
  Instr.lenDecode.opcode = 0x5 ∧
  ∀ s : State, ∃ t, exec .lenDecode s = .next t ∧
    (∀ len cons, dec s.regs.bufLen s.regs.window = .ok (len, cons) →
      t.regs.dlenOut.toNat = len ∧ t.regs.dconsOut.toNat = cons ∧ t.regs.err = 0x0) ∧
    (∀ e, dec s.regs.bufLen s.regs.window = .error e →
      t.regs.dlenOut = 0 ∧ t.regs.dconsOut = 0 ∧ t.regs.err = e.bits) ∧
    t = { s with regs := { s.regs with
      dlenOut := t.regs.dlenOut, dconsOut := t.regs.dconsOut, err := t.regs.err, lastop := 0x5 } }

/-- R162: which command reports `TRUNCATED_BUFFER`, exactly when, and the zeros it leaves. -/
def Obligations.TruncatedBufferCause : Prop :=
  ∀ (i : Instr) (s : State), ∃ t, exec i s = .next t ∧
    (t.regs.err = 0x1 ↔ i = .lenDecode ∧ (s.regs.bufLen.toNat < 2 ∨
      (0x80 < (s.regs.win0.extractLsb' 8 8).toNat ∧
        s.regs.bufLen.toNat - 2 < (s.regs.win0.extractLsb' 8 8).toNat - 0x80))) ∧
    (t.regs.err = 0x1 → t.regs.dlenOut = 0 ∧ t.regs.dconsOut = 0)

/-- R163: which command reports `UNSUPPORTED_ENCODING`, exactly when, and the zeros it leaves. -/
def Obligations.UnsupportedEncodingCause : Prop :=
  ∀ (i : Instr) (s : State), ∃ t, exec i s = .next t ∧
    (t.regs.err = 0x3 ↔ i = .lenDecode ∧ (s.regs.win0.extractLsb' 8 8).toNat = 0x80 ∧ 2 ≤ s.regs.bufLen.toNat) ∧
    (t.regs.err = 0x3 → t.regs.dlenOut = 0 ∧ t.regs.dconsOut = 0)

/-- R164: which command reports `LENGTH_OVERFLOW`, exactly when, and the zeros it leaves. -/
def Obligations.LengthOverflowCause : Prop :=
  ∀ (i : Instr) (s : State), ∃ t, exec i s = .next t ∧
    (t.regs.err = 0x4 ↔ i = .lenDecode ∧ 0x85 ≤ (s.regs.win0.extractLsb' 8 8).toNat ∧
      (s.regs.win0.extractLsb' 8 8).toNat - 0x80 + 2 ≤ s.regs.bufLen.toNat) ∧
    (t.regs.err = 0x4 → t.regs.dlenOut = 0 ∧ t.regs.dconsOut = 0)

/-- `DCONS_OUT = 0` marks a failed decode, and `DLEN_OUT` alone does not tell a decoded 0 from a failure: R196, which
the spec derives from R126. -/
def Obligations.DecodeFailureIsVisible : Prop :=
  (∀ s : State, ∃ t, exec .lenDecode s = .next t ∧ (t.regs.err = 0 ↔ 1 ≤ t.regs.dconsOut.toNat) ∧
    (t.regs.err ≠ 0 ↔ t.regs.dlenOut = 0 ∧ t.regs.dconsOut = 0)) ∧
  ∃ s u t w : State, exec .lenDecode s = .next t ∧ exec .lenDecode u = .next w ∧
    t.regs.dlenOut = w.regs.dlenOut ∧ t.regs.err = 0 ∧ w.regs.err ≠ 0

/-- Decoding the encoding of any length, with any tag byte before it and anything after it, gives it back: R127, which
the spec derives from R122 and R125. -/
def Obligations.DecodeOfEncode : Prop :=
  ∀ (L B : Word) (tag : Byte) (padding : List Byte), 1 + hdrsize L ≤ B.toNat →
    dec B ([tag] ++ enc L ++ padding) = .ok (L.toNat, hdrsize L)

/-- R127 (derived by the spec) through the registers: LEN_ENCODE, the host's copy of the header bytes into the window
behind a tag, and LEN_DECODE give the length and the header's size back. -/
def Obligations.EncodeCopyDecodeRoundTrip : Prop :=
  ∀ (s : State) (tag : Byte) (B : Word), 1 + hdrsize s.regs.lenIn ≤ B.toNat →
    ∃ t u, exec .lenEncode s = .next t ∧
      exec .lenDecode { t with regs := { t.regs with
        bufLen := B
        win0 := t.regs.hdrOut0.extractLsb' 0 24 ++ tag
        win1 := t.regs.hdrOut1 ++ t.regs.hdrOut0.extractLsb' 24 8 } } = .next u ∧
      u.regs.dlenOut = s.regs.lenIn ∧ u.regs.dconsOut = t.regs.hdrLen ∧ u.regs.err = 0

/-- No header that decodes to `L` is shorter than `enc L`, and only `enc L` is as short: R128, which the spec derives
from R122 and R125. -/
def Obligations.EncodingIsShortest : Prop :=
  ∀ (B L : Word) (w0 w1 w2 w3 w4 w5 : Byte) (n : Nat),
    dec B [w0, w1, w2, w3, w4, w5] = .ok (L.toNat, n) →
      (enc L).length ≤ n ∧ (n = (enc L).length → [w1, w2, w3, w4, w5].take n = enc L)

/-- Long forms with leading zero bytes, or of lengths up to 127, decode; so encoding a decoded length need not give
the header back: R129, which the spec derives from R125. -/
def Obligations.NonMinimalHeadersDecode : Prop :=
  (∀ (B v : Word) (tag : Byte) (k : Nat) (padding : List Byte), 1 ≤ k → k ≤ 4 → v.toNat < 256 ^ k → 2 + k ≤ B.toNat →
    dec B ([tag, 0x80 ||| BitVec.ofNat 8 k] ++ beBytes v k ++ padding) = .ok (v.toNat, 1 + k)) ∧
  ∃ (B L : Word) (W : List Byte) (n : Nat), dec B W = .ok (L.toNat, n) ∧ enc L ≠ (W.drop 1).take n

/-- R130: the decoder checks that the header fits in the buffer, and not that the value does; its example with
`BLEN = 2` comes last. -/
def Obligations.OnlyTheHeaderMustFit : Prop :=
  (∀ (B : Word) (W : List Byte) (len n : Nat), dec B W = .ok (len, n) →
    1 + n ≤ B.toNat ∧ ∀ C : Word, 1 + n ≤ C.toNat → dec C W = .ok (len, n)) ∧
  ∀ w0 w2 w3 w4 w5 : Byte, dec 2 [w0, 0x7F, w2, w3, w4, w5] = .ok (127, 1)

/-- R131: the tag byte of the window has no effect on LEN_DECODE. -/
def Obligations.TagByteHasNoEffectOnDecode : Prop :=
  ∀ (s : State) (tag : Byte), ∃ t u, exec .lenDecode s = .next t ∧
    exec .lenDecode { s with regs := { s.regs with win0 := s.regs.win0.extractLsb' 8 24 ++ tag } } = .next u ∧
    u.regs.dlenOut = t.regs.dlenOut ∧ u.regs.dconsOut = t.regs.dconsOut ∧ u.regs.err = t.regs.err

/-- A window byte that is not part of the host's buffer is not read (R41, R198; the spec derives it from R125). -/
def Obligations.BytesPastTheBufferAreNotRead : Prop :=
  ∀ (B : Word) (V W : List Byte), V.length = 6 → W.length = 6 →
    (∀ j, j < B.toNat → V.getD j 0 = W.getD j 0) → dec B V = dec B W

/-! ## The register window -/

/-- R52: what a write does at each offset of the window. -/
def Obligations.BusWriteMeaning : Prop :=
  ∀ (s : State) (v : Word) (rest : List HostEvent),
    let after := fun off : Nat => step { s with inputs := .access ⟨.w32, s.cfg.baseAddr + off, .write v⟩ :: rest }
    (after 0x00 = exec (decodeWord v) { s with inputs := rest }) ∧
    (∀ p ∈ [(0x08, Reg.tagfIn, 0x001F0103#32), (0x0C, .tagIn, 0x000000FF#32), (0x18, .lenIn, 0xFFFFFFFF#32),
        (0x2C, .bufLen, 0xFFFFFFFF#32), (0x30, .win0, 0xFFFFFFFF#32), (0x34, .win1, 0x0000FFFF#32)],
      ∃ t, after p.1 = .next t ∧ t.regs.read p.2.1 = v &&& p.2.2 ∧
        (∀ r : Reg, r ≠ p.2.1 → t.regs.read r = s.regs.read r) ∧
        t.cfg = s.cfg ∧ t.inputs = rest ∧ t.reads = s.reads) ∧
    ∀ off ∈ [0x04, 0x10, 0x14, 0x1C, 0x20, 0x24, 0x28, 0x38, 0x3C], after off = .next { s with inputs := rest }

/-- R53, R24: what a read returns at each offset of the window; it changes no register. -/
def Obligations.BusReadMeaning : Prop :=
  ∀ (s : State) (rest : List HostEvent),
    ∀ p ∈ [(0x00, 0),
        (0x04, s.regs.err.toNat + s.regs.lastop.toNat * 256),
        (0x08, s.regs.tagfIn.cls.toNat + s.regs.tagfIn.form.toNat * 256 + s.regs.tagfIn.code.toNat * 65536),
        (0x0C, s.regs.tagIn.toNat), (0x10, s.regs.tagOut.toNat),
        (0x14, s.regs.tagfOut.cls.toNat + s.regs.tagfOut.form.toNat * 256 + s.regs.tagfOut.code.toNat * 65536),
        (0x18, s.regs.lenIn.toNat), (0x1C, s.regs.hdrOut0.toNat), (0x20, s.regs.hdrOut1.toNat),
        (0x24, s.regs.hdrLen.toNat), (0x28, s.regs.sizeOut.toNat), (0x2C, s.regs.bufLen.toNat),
        (0x30, s.regs.win0.toNat), (0x34, s.regs.win1.toNat), (0x38, s.regs.dlenOut.toNat),
        (0x3C, s.regs.dconsOut.toNat)],
      ∃ v : Word, step { s with inputs := .access ⟨.w32, s.cfg.baseAddr + p.1, .read⟩ :: rest } =
          .next { s with inputs := rest, reads := v :: s.reads } ∧ v.toNat = p.2

/-- R43: a bit outside the listed fields of a register reads 0, and a write ignores it. -/
def Obligations.UnlistedBitsReadZero : Prop :=
  (∀ (rs : Regs) (r : Reg), rs.read r &&& ~~~ r.fieldMask = 0) ∧
  ∀ (rs : Regs) (r : Reg) (v w : Word), v &&& r.fieldMask = w &&& r.fieldMask → rs.store r v = rs.store r w

/-- R54: a narrow, misaligned or out-of-window access is refused, by the name of a reason that holds. Which one, where
several hold, is the model's choice (notes/assumptions/5). -/
def Obligations.MeaninglessAccessesAreRefused : Prop :=
  ∀ (s : State) (a : Access) (rest : List HostEvent),
    (a.width ≠ .w32 ∨ a.addr % 4 ≠ 0 ∨ a.addr < s.cfg.baseAddr ∨ s.cfg.baseAddr + 0x40 ≤ a.addr) →
    ∃ why, step { s with inputs := .access a :: rest } = .refused why ∧
      ((why = .narrowAccess a.width ∧ a.width ≠ .w32) ∨ (why = .misalignedAccess a.addr ∧ a.addr % 4 ≠ 0) ∨
        (why = .outOfWindow a.addr ∧ (a.addr < s.cfg.baseAddr ∨ s.cfg.baseAddr + 0x40 ≤ a.addr)))

/-- R56: only a write to `CMD` changes a result register or `STATUS`, reset apart. -/
def Obligations.OnlyCommandsChangeResults : Prop :=
  ∀ (s t : State) (e : HostEvent) (rest : List HostEvent),
    step { s with inputs := e :: rest } = .next t → e ≠ .reset →
    (∀ v : Word, e ≠ .access ⟨.w32, s.cfg.baseAddr, .write v⟩) →
      ∀ r : Reg, r.isReadOnly = true → t.regs.read r = s.regs.read r

/-! ## The host-access notation -/

/-- R85, R86: the expansion of each line and pseudo-instruction, and what the assembler refuses. That a line with a hex
offset assembles at every offset, and that a `WIN` line may have no byte, is the model's choice (notes/assumptions/12). -/
def Obligations.NotationExpansions : Prop :=
  (∀ (r : Reg) (v : Word), assemble (.wr (.name r) v) = some [(r.offset, .write v)] ∧
    assemble (.rd (.name r)) = some [(r.offset, .read)]) ∧
  (∀ (off : Nat) (v : Word), assemble (.wr (.offset off) v) = some [(off, .write v)] ∧
    assemble (.rd (.offset off)) = some [(off, .read)]) ∧
  (assemble (.cmd .tagPack) = some [(0x00, .write 0x1)] ∧ assemble (.cmd .tagUnpack) = some [(0x00, .write 0x2)] ∧
    assemble (.cmd .lenEncode) = some [(0x00, .write 0x3)] ∧ assemble (.cmd .lenSize) = some [(0x00, .write 0x4)] ∧
    assemble (.cmd .lenDecode) = some [(0x00, .write 0x5)]) ∧
  (∀ c f k : Nat, c ≤ 3 → f ≤ 1 → k ≤ 31 →
    assemble (.tagf c f k) = some [(0x08, .write (BitVec.ofNat 32 (c + f * 256 + k * 65536)))]) ∧
  (∀ c f k : Nat, 3 < c ∨ 1 < f ∨ 31 < k → assemble (.tagf c f k) = none) ∧
  (∀ b0 b1 b2 b3 b4 b5 : Byte, assemble (.win [b0, b1, b2, b3, b4, b5]) =
    some [(0x30, .write (b3 ++ b2 ++ b1 ++ b0)), (0x34, .write (BitVec.ofNat 32 (b4.toNat + b5.toNat * 256)))]) ∧
  ∀ bs : List Byte, bs.length ≤ 6 →
    assemble (.win bs) = assemble (.win (bs ++ List.replicate (6 - bs.length) 0))

/-- R86, R41: the accesses of a `WIN` line leave its bytes in the window, missing trailing bytes being 0. That the line
may have no byte is the model's choice (notes/assumptions/12). -/
def Obligations.WinLineLoadsTheWindow : Prop :=
  ∀ (s : State) (bs : List Byte) (rest : List HostEvent), bs.length ≤ 6 →
    ∃ ps t, assemble (.win bs) = some ps ∧
      runSteps 2 { s with inputs := ps.map (transaction s.cfg) ++ rest } = .next t ∧
      t.inputs = rest ∧ t.regs.window = bs ++ List.replicate (6 - bs.length) 0

/-- R86, R52, R100: the accesses of a `TAGF` line and of `CMD TAG_PACK` leave the packed tag in `TAG_OUT`. -/
def Obligations.TagfLineThenTagPack : Prop :=
  ∀ (s : State) (c f k : Nat) (rest : List HostEvent), c ≤ 3 → f ≤ 1 → k ≤ 31 →
    ∃ es t, assembleAll s.cfg [.tagf c f k, .cmd .tagPack] = some es ∧
      runSteps 2 { s with inputs := es ++ rest } = .next t ∧
      t.inputs = rest ∧ t.regs.tagOut.toNat = c * 64 + f * 32 + k ∧ t.regs.err = 0
end

