-- ==== Sys2Proof/Laws/Decode.lean ====
section
/-! SUPPORT. What the decoder and the encoder do, said once. -/

namespace Sys2Proof

/-- `decodeOp` and `opcode` are inverse: no two rows of the opcode table share an `OP`. -/
@[simp] theorem decodeOp_opcode (i : Instr) : decodeOp i.opcode = i := by
  cases i <;> rfl

@[simp] theorem opcode_decodeOp (op : BitVec 4) : (decodeOp op).opcode = op := by
  revert op; decide

theorem decodeOp_eq_iff (op : BitVec 4) (i : Instr) : decodeOp op = i ↔ op = i.opcode :=
  ⟨fun h => by rw [← h, opcode_decodeOp], fun h => by rw [h, decodeOp_opcode]⟩

theorem commandOp_toNat (v : Word) : (commandOp v).toNat = v.toNat % 16 := by
  simp [commandOp, BitVec.extractLsb'_toNat]

/-- Any value in `CMD[31:4]` leaves `OP` as it is. -/
theorem commandOp_append (ignored : BitVec 28) (op : BitVec 4) : commandOp (ignored ++ op) = op := by
  apply BitVec.eq_of_toNat_eq
  rw [commandOp_toNat, BitVec.toNat_append, ← Nat.shiftLeft_add_eq_or_of_lt op.isLt, Nat.shiftLeft_eq]
  have := op.isLt
  omega

theorem commandOp_encode (i : Instr) : commandOp (encode i) = i.opcode := by
  cases i <;> rfl

/-- A word put together from its lanes is the word. -/
theorem wordOfLanes_lanes (v : Word) :
    wordOfLanes (v.extractLsb' 0 8) (v.extractLsb' 8 8) (v.extractLsb' 16 8) (v.extractLsb' 24 8) = v := by
  apply BitVec.eq_of_toNat_eq
  have h := v.isLt
  simp only [wordOfLanes, BitVec.toNat_append, BitVec.extractLsb'_toNat, Nat.shiftRight_eq_div_pow]
  rw [← Nat.shiftLeft_add_eq_or_of_lt (by omega), ← Nat.shiftLeft_add_eq_or_of_lt (by omega),
    ← Nat.shiftLeft_add_eq_or_of_lt (by omega)]
  simp only [Nat.shiftLeft_eq]
  omega

theorem wordOfLanes_toNat (b0 b1 b2 b3 : Byte) : (wordOfLanes b0 b1 b2 b3).toNat =
    b0.toNat + b1.toNat * 256 + b2.toNat * 65536 + b3.toNat * 16777216 := by
  have h0 := b0.isLt
  have h1 := b1.isLt
  have h2 := b2.isLt
  simp only [wordOfLanes, BitVec.toNat_append]
  rw [← Nat.shiftLeft_add_eq_or_of_lt h0, ← Nat.shiftLeft_add_eq_or_of_lt h1,
    ← Nat.shiftLeft_add_eq_or_of_lt h2]
  simp only [Nat.shiftLeft_eq]
  omega

theorem decode_lanesOfWord (v : Word) : decode (lanesOfWord v) = .ok (decodeWord v) := by
  simp only [lanesOfWord, decode, wordOfLanes_lanes]

end Sys2Proof
end

