-- ==== Sys2Proof/Laws/Length.lean ====
section
/-! SUPPORT. The primitives of the length codec and its three functions: sizes, bounds and the cases of `dec`. -/

namespace Sys2Proof.Machine

/-! ## `bitlen` -/

theorem bitlenBelow_le (v : Word) (k : Nat) : bitlenBelow v k ≤ k := by
  induction k with
  | zero => exact Nat.le_refl 0
  | succ k ih =>
    unfold bitlenBelow
    split
    · exact Nat.le_refl _
    · omega

/-- Every bit of `v` below `k` is a bit below `bitlenBelow v k`. -/
theorem lt_bitlenBelow (v : Word) (k j : Nat) (hj : j < k) (h : v.getLsbD j = true) : j < bitlenBelow v k := by
  induction k with
  | zero => omega
  | succ k ih =>
    unfold bitlenBelow
    split
    · omega
    · next hk =>
      rcases Nat.lt_succ_iff_lt_or_eq.1 hj with h' | rfl
      · exact ih h'
      · exact absurd h hk

/-- If `bitlenBelow v k` is `m + 1`, bit `m` of `v` is set. -/
theorem getLsbD_bitlenBelow (v : Word) (k m : Nat) (h : bitlenBelow v k = m + 1) : v.getLsbD m = true := by
  induction k with
  | zero => cases h
  | succ k ih =>
    unfold bitlenBelow at h
    split at h
    · next hk => cases h; exact hk
    · exact ih h

theorem toNat_lt_of_bitlen (v : Word) : v.toNat < 2 ^ bitlen v := by
  apply Nat.lt_pow_two_of_testBit
  intro j hj
  by_contra h
  have hb : v.getLsbD j = true := by simpa [BitVec.getLsbD] using h
  have h32 : j < 32 := BitVec.lt_of_getLsbD hb
  have := lt_bitlenBelow v 32 j h32 hb
  unfold bitlen at hj
  omega

theorem le_toNat_of_bitlen (v : Word) (m : Nat) (h : bitlen v = m + 1) : 2 ^ m ≤ v.toNat :=
  Nat.ge_two_pow_of_testBit (getLsbD_bitlenBelow v 32 m h)

/-! ## `octets` -/

theorem toNat_lt_of_octets (L : Word) : L.toNat < 256 ^ octets L := by
  have h := toNat_lt_of_bitlen L
  have h2 : bitlen L ≤ 8 * octets L := by unfold octets ceilDiv; omega
  calc L.toNat < 2 ^ bitlen L := h
    _ ≤ 2 ^ (8 * octets L) := Nat.pow_le_pow_right (by decide) h2
    _ = 256 ^ octets L := by rw [Nat.pow_mul]

theorem le_toNat_of_octets (L : Word) (k : Nat) (h : octets L = k + 1) : 256 ^ k ≤ L.toNat := by
  obtain ⟨m, hm⟩ : ∃ m, bitlen L = m + 1 := ⟨bitlen L - 1, by unfold octets ceilDiv at h; omega⟩
  have h2 : 8 * k ≤ m := by unfold octets ceilDiv at h; omega
  calc 256 ^ k = 2 ^ (8 * k) := by rw [Nat.pow_mul]
    _ ≤ 2 ^ m := Nat.pow_le_pow_right (by decide) h2
    _ ≤ L.toNat := le_toNat_of_bitlen L m hm

theorem octets_le (L : Word) : octets L ≤ 4 := by
  have := bitlenBelow_le L 32
  unfold octets ceilDiv bitlen
  omega

/-- `octets L` is the least number of bytes that hold `L`. -/
theorem octets_le_iff (L : Word) (k : Nat) : octets L ≤ k ↔ L.toNat < 256 ^ k := by
  constructor
  · intro h
    exact Nat.lt_of_lt_of_le (toNat_lt_of_octets L) (Nat.pow_le_pow_right (by decide) h)
  · intro h
    by_contra hk
    obtain ⟨m, hm⟩ : ∃ m, octets L = m + 1 := ⟨octets L - 1, by omega⟩
    have h1 := le_toNat_of_octets L m hm
    have h2 : 256 ^ k ≤ 256 ^ m := Nat.pow_le_pow_right (by decide) (by omega)
    omega

/-! ## `BE` and `BEbytes` -/

theorem beBytes_length (v : Word) (k : Nat) : (beBytes v k).length = k := by
  induction k with
  | zero => rfl
  | succ k ih => simp [beBytes, ih]

theorem beValue_lt (bs : List Byte) : beValue bs < 256 ^ bs.length := by
  induction bs with
  | nil => decide
  | cons b bs ih =>
    have hb := b.isLt
    have : b.toNat * 256 ^ bs.length ≤ 255 * 256 ^ bs.length := Nat.mul_le_mul_right _ (by omega)
    simp only [beValue, List.length_cons, Nat.pow_succ]
    omega

theorem beValue_beBytes_of_lt (v : Word) (k : Nat) (h : v.toNat < 256 ^ k) : beValue (beBytes v k) = v.toNat := by
  have key : ∀ k, beValue (beBytes v k) = v.toNat % 256 ^ k := by
    intro k
    induction k with
    | zero => simp [beBytes, beValue, Nat.mod_one]
    | succ k ih =>
      rw [beBytes, beValue, ih, beBytes_length, BitVec.toNat_setWidth, BitVec.toNat_ushiftRight,
        Nat.shiftRight_eq_div_pow, Nat.pow_mul, show 2 ^ 8 = 256 from rfl, Nat.pow_succ 256 k, Nat.mod_mul,
        Nat.mul_comm, Nat.add_comm]
  rw [key, Nat.mod_eq_of_lt h]

/-- A byte string of length `k` is `BEbytes` of its value. -/
theorem beValue_injective (s t : List Byte) (hl : s.length = t.length) (h : beValue s = beValue t) : s = t := by
  induction s generalizing t with
  | nil => exact (List.length_eq_zero_iff.1 hl.symm).symm
  | cons b s ih =>
    cases t with
    | nil => simp at hl
    | cons c t =>
      simp only [List.length_cons, Nat.add_right_cancel_iff] at hl
      have hs := beValue_lt s
      have ht := beValue_lt t
      simp only [beValue, hl] at h
      rw [hl] at hs
      have hbc : b.toNat = c.toNat := by
        have h1 := congrArg (fun x => x / 256 ^ t.length) h
        beta_reduce at h1
        rwa [Nat.mul_comm, Nat.mul_add_div (by positivity), Nat.div_eq_of_lt hs, Nat.mul_comm,
          Nat.mul_add_div (by positivity), Nat.div_eq_of_lt ht] at h1
      rw [hbc] at h
      rw [BitVec.eq_of_toNat_eq hbc, ih t hl (by omega)]

/-! ## `enc` -/

theorem enc_short (L : Word) (h : L.toNat ≤ 127) : enc L = [L.extractLsb' 0 8] := if_pos h

theorem enc_long (L : Word) (h : 127 < L.toNat) :
    enc L = (0x80 ||| BitVec.ofNat 8 (octets L)) :: beBytes L (octets L) := if_neg (by omega)

theorem enc_length_eq_hdrsize (L : Word) : (enc L).length = hdrsize L := by
  unfold enc hdrsize
  split
  · rfl
  · rw [List.length_cons, beBytes_length, Nat.add_comm]

theorem hdrsize_bounds (L : Word) : 1 ≤ hdrsize L ∧ hdrsize L ≤ 5 := by
  have := octets_le L
  unfold hdrsize
  split <;> omega

theorem padHeader_length (L : Word) : (padHeader (enc L)).length = 5 := by
  have := hdrsize_bounds L
  simp only [padHeader, List.length_append, List.length_replicate, enc_length_eq_hdrsize]
  omega

/-! ## `dec` -/

/-- The six ways `dec` can end, with the conditions of each (R125). `h` is `W[1]`. -/
theorem dec_cases (B : Word) (W : List Byte) :
    (dec B W = .error .truncatedBuffer ∧ B.toNat < 2) ∨
    (dec B W = .ok ((W.getD 1 0).toNat, 1) ∧ 2 ≤ B.toNat ∧ (W.getD 1 0).toNat < 128) ∨
    (dec B W = .error .unsupportedEncoding ∧ 2 ≤ B.toNat ∧ (W.getD 1 0).toNat = 128) ∨
    (dec B W = .error .truncatedBuffer ∧ 2 ≤ B.toNat ∧ 128 < (W.getD 1 0).toNat ∧
      B.toNat < (W.getD 1 0).toNat - 128 + 2) ∨
    (dec B W = .error .lengthOverflow ∧ 133 ≤ (W.getD 1 0).toNat ∧ (W.getD 1 0).toNat - 128 + 2 ≤ B.toNat) ∨
    (dec B W = .ok (beValue ((W.drop 2).take ((W.getD 1 0).toNat - 128)), 1 + ((W.getD 1 0).toNat - 128)) ∧
      128 < (W.getD 1 0).toNat ∧ (W.getD 1 0).toNat ≤ 132 ∧ (W.getD 1 0).toNat - 128 + 2 ≤ B.toNat) := by
  have hlt := (W.getD 1 0).isLt
  have hbit : (W.getD 1 0).getLsbD 7 = false ↔ (W.getD 1 0).toNat < 128 := by
    rw [BitVec.getLsbD, Nat.testBit_eq_decide_div_mod_eq, decide_eq_false_iff_not]
    omega
  have hn : 128 ≤ (W.getD 1 0).toNat → ((W.getD 1 0).extractLsb' 0 7).toNat = (W.getD 1 0).toNat - 128 := by
    intro h
    rw [BitVec.extractLsb'_toNat, Nat.shiftRight_zero]
    omega
  by_cases h0 : B.toNat < 2
  · exact .inl ⟨if_pos h0, h0⟩
  by_cases h1 : (W.getD 1 0).toNat < 128
  · exact .inr (.inl ⟨(if_neg h0).trans (if_pos (hbit.2 h1)), by omega, h1⟩)
  have long : dec B W = _ := (if_neg h0).trans (if_neg (fun h => h1 (hbit.1 h)))
  rw [hn (by omega)] at long
  by_cases h2 : (W.getD 1 0).toNat - 128 = 0
  · exact .inr (.inr (.inl ⟨long.trans (if_pos h2), by omega, by omega⟩))
  by_cases h3 : B.toNat - 2 < (W.getD 1 0).toNat - 128
  · exact .inr (.inr (.inr (.inl ⟨long.trans ((if_neg h2).trans (if_pos h3)), by omega, by omega, by omega⟩)))
  by_cases h4 : (W.getD 1 0).toNat - 128 > 4
  · exact .inr (.inr (.inr (.inr (.inl
      ⟨long.trans ((if_neg h2).trans ((if_neg h3).trans (if_pos h4))), by omega, by omega⟩))))
  · exact .inr (.inr (.inr (.inr (.inr
      ⟨long.trans ((if_neg h2).trans ((if_neg h3).trans (if_neg h4))), by omega, by omega, by omega⟩))))

/-- A decoded length and a count of consumed bytes fit the registers that receive them. -/
theorem dec_ok_bounds (B : Word) (W : List Byte) (len n : Nat) (h : dec B W = .ok (len, n)) :
    len < 2 ^ 32 ∧ 1 ≤ n ∧ n ≤ 5 := by
  have hlt := (W.getD 1 0).isLt
  rcases dec_cases B W with ⟨h', _⟩ | ⟨h', _⟩ | ⟨h', _⟩ | ⟨h', _⟩ | ⟨h', _⟩ | ⟨h', h1, h2, _⟩ <;>
    rw [h'] at h <;> simp only [Except.ok.injEq, Prod.mk.injEq, reduceCtorEq] at h <;>
    obtain ⟨hlen, hn⟩ := h <;> rw [← hlen, ← hn]
  · exact ⟨Nat.lt_trans hlt (by norm_num), Nat.le_refl 1, by decide⟩
  · have hv := beValue_lt ((W.drop 2).take ((W.getD 1 0).toNat - 128))
    have hl : ((W.drop 2).take ((W.getD 1 0).toNat - 128)).length ≤ 4 := by
      rw [List.length_take]; omega
    refine ⟨?_, by omega, by omega⟩
    calc beValue _ < 256 ^ _ := hv
      _ ≤ 256 ^ 4 := Nat.pow_le_pow_right (by decide) hl
      _ = 2 ^ 32 := by norm_num

/-- The only errors of `dec` are those R126 lists. -/
theorem dec_error_codes (B : Word) (W : List Byte) (e : ErrCode) (h : dec B W = .error e) :
    e = .truncatedBuffer ∨ e = .unsupportedEncoding ∨ e = .lengthOverflow := by
  rcases dec_cases B W with ⟨h', _⟩ | ⟨h', _⟩ | ⟨h', _⟩ | ⟨h', _⟩ | ⟨h', _⟩ | ⟨h', _⟩ <;>
    rw [h'] at h <;> cases h <;> simp

end Sys2Proof.Machine
end

