-- ==== Sys2Proof/Laws/State.lean ====
section
/-! SUPPORT. What each update of the registers and of the state does to each field, so that no proof unfolds a record
update. -/

namespace Sys2Proof.Machine

variable (r : Regs) (s : State)

/-! ### `Regs.report` -/

@[simp] theorem Regs.report_err (e : ErrCode) (op : BitVec 4) : (r.report e op).err = e.bits := rfl
@[simp] theorem Regs.report_lastop (e : ErrCode) (op : BitVec 4) : (r.report e op).lastop = op := rfl
@[simp] theorem Regs.report_tagfIn (e : ErrCode) (op : BitVec 4) : (r.report e op).tagfIn = r.tagfIn := rfl
@[simp] theorem Regs.report_tagIn (e : ErrCode) (op : BitVec 4) : (r.report e op).tagIn = r.tagIn := rfl
@[simp] theorem Regs.report_tagOut (e : ErrCode) (op : BitVec 4) : (r.report e op).tagOut = r.tagOut := rfl
@[simp] theorem Regs.report_tagfOut (e : ErrCode) (op : BitVec 4) : (r.report e op).tagfOut = r.tagfOut := rfl
@[simp] theorem Regs.report_lenIn (e : ErrCode) (op : BitVec 4) : (r.report e op).lenIn = r.lenIn := rfl
@[simp] theorem Regs.report_hdrOut0 (e : ErrCode) (op : BitVec 4) : (r.report e op).hdrOut0 = r.hdrOut0 := rfl
@[simp] theorem Regs.report_hdrOut1 (e : ErrCode) (op : BitVec 4) : (r.report e op).hdrOut1 = r.hdrOut1 := rfl
@[simp] theorem Regs.report_hdrLen (e : ErrCode) (op : BitVec 4) : (r.report e op).hdrLen = r.hdrLen := rfl
@[simp] theorem Regs.report_sizeOut (e : ErrCode) (op : BitVec 4) : (r.report e op).sizeOut = r.sizeOut := rfl
@[simp] theorem Regs.report_bufLen (e : ErrCode) (op : BitVec 4) : (r.report e op).bufLen = r.bufLen := rfl
@[simp] theorem Regs.report_win0 (e : ErrCode) (op : BitVec 4) : (r.report e op).win0 = r.win0 := rfl
@[simp] theorem Regs.report_win1 (e : ErrCode) (op : BitVec 4) : (r.report e op).win1 = r.win1 := rfl
@[simp] theorem Regs.report_dlenOut (e : ErrCode) (op : BitVec 4) : (r.report e op).dlenOut = r.dlenOut := rfl
@[simp] theorem Regs.report_dconsOut (e : ErrCode) (op : BitVec 4) : (r.report e op).dconsOut = r.dconsOut := rfl

/-! ### `Regs.setTagfIn` -/

@[simp] theorem Regs.setTagfIn_err (t : TagFields) : (r.setTagfIn t).err = r.err := rfl
@[simp] theorem Regs.setTagfIn_lastop (t : TagFields) : (r.setTagfIn t).lastop = r.lastop := rfl
@[simp] theorem Regs.setTagfIn_tagfIn (t : TagFields) : (r.setTagfIn t).tagfIn = t := rfl
@[simp] theorem Regs.setTagfIn_tagIn (t : TagFields) : (r.setTagfIn t).tagIn = r.tagIn := rfl
@[simp] theorem Regs.setTagfIn_tagOut (t : TagFields) : (r.setTagfIn t).tagOut = r.tagOut := rfl
@[simp] theorem Regs.setTagfIn_tagfOut (t : TagFields) : (r.setTagfIn t).tagfOut = r.tagfOut := rfl
@[simp] theorem Regs.setTagfIn_lenIn (t : TagFields) : (r.setTagfIn t).lenIn = r.lenIn := rfl
@[simp] theorem Regs.setTagfIn_hdrOut0 (t : TagFields) : (r.setTagfIn t).hdrOut0 = r.hdrOut0 := rfl
@[simp] theorem Regs.setTagfIn_hdrOut1 (t : TagFields) : (r.setTagfIn t).hdrOut1 = r.hdrOut1 := rfl
@[simp] theorem Regs.setTagfIn_hdrLen (t : TagFields) : (r.setTagfIn t).hdrLen = r.hdrLen := rfl
@[simp] theorem Regs.setTagfIn_sizeOut (t : TagFields) : (r.setTagfIn t).sizeOut = r.sizeOut := rfl
@[simp] theorem Regs.setTagfIn_bufLen (t : TagFields) : (r.setTagfIn t).bufLen = r.bufLen := rfl
@[simp] theorem Regs.setTagfIn_win0 (t : TagFields) : (r.setTagfIn t).win0 = r.win0 := rfl
@[simp] theorem Regs.setTagfIn_win1 (t : TagFields) : (r.setTagfIn t).win1 = r.win1 := rfl
@[simp] theorem Regs.setTagfIn_dlenOut (t : TagFields) : (r.setTagfIn t).dlenOut = r.dlenOut := rfl
@[simp] theorem Regs.setTagfIn_dconsOut (t : TagFields) : (r.setTagfIn t).dconsOut = r.dconsOut := rfl

/-! ### `Regs.setTagIn` -/

@[simp] theorem Regs.setTagIn_err (t : Byte) : (r.setTagIn t).err = r.err := rfl
@[simp] theorem Regs.setTagIn_lastop (t : Byte) : (r.setTagIn t).lastop = r.lastop := rfl
@[simp] theorem Regs.setTagIn_tagfIn (t : Byte) : (r.setTagIn t).tagfIn = r.tagfIn := rfl
@[simp] theorem Regs.setTagIn_tagIn (t : Byte) : (r.setTagIn t).tagIn = t := rfl
@[simp] theorem Regs.setTagIn_tagOut (t : Byte) : (r.setTagIn t).tagOut = r.tagOut := rfl
@[simp] theorem Regs.setTagIn_tagfOut (t : Byte) : (r.setTagIn t).tagfOut = r.tagfOut := rfl
@[simp] theorem Regs.setTagIn_lenIn (t : Byte) : (r.setTagIn t).lenIn = r.lenIn := rfl
@[simp] theorem Regs.setTagIn_hdrOut0 (t : Byte) : (r.setTagIn t).hdrOut0 = r.hdrOut0 := rfl
@[simp] theorem Regs.setTagIn_hdrOut1 (t : Byte) : (r.setTagIn t).hdrOut1 = r.hdrOut1 := rfl
@[simp] theorem Regs.setTagIn_hdrLen (t : Byte) : (r.setTagIn t).hdrLen = r.hdrLen := rfl
@[simp] theorem Regs.setTagIn_sizeOut (t : Byte) : (r.setTagIn t).sizeOut = r.sizeOut := rfl
@[simp] theorem Regs.setTagIn_bufLen (t : Byte) : (r.setTagIn t).bufLen = r.bufLen := rfl
@[simp] theorem Regs.setTagIn_win0 (t : Byte) : (r.setTagIn t).win0 = r.win0 := rfl
@[simp] theorem Regs.setTagIn_win1 (t : Byte) : (r.setTagIn t).win1 = r.win1 := rfl
@[simp] theorem Regs.setTagIn_dlenOut (t : Byte) : (r.setTagIn t).dlenOut = r.dlenOut := rfl
@[simp] theorem Regs.setTagIn_dconsOut (t : Byte) : (r.setTagIn t).dconsOut = r.dconsOut := rfl

/-! ### `Regs.setLenIn` -/

@[simp] theorem Regs.setLenIn_err (v : Word) : (r.setLenIn v).err = r.err := rfl
@[simp] theorem Regs.setLenIn_lastop (v : Word) : (r.setLenIn v).lastop = r.lastop := rfl
@[simp] theorem Regs.setLenIn_tagfIn (v : Word) : (r.setLenIn v).tagfIn = r.tagfIn := rfl
@[simp] theorem Regs.setLenIn_tagIn (v : Word) : (r.setLenIn v).tagIn = r.tagIn := rfl
@[simp] theorem Regs.setLenIn_tagOut (v : Word) : (r.setLenIn v).tagOut = r.tagOut := rfl
@[simp] theorem Regs.setLenIn_tagfOut (v : Word) : (r.setLenIn v).tagfOut = r.tagfOut := rfl
@[simp] theorem Regs.setLenIn_lenIn (v : Word) : (r.setLenIn v).lenIn = v := rfl
@[simp] theorem Regs.setLenIn_hdrOut0 (v : Word) : (r.setLenIn v).hdrOut0 = r.hdrOut0 := rfl
@[simp] theorem Regs.setLenIn_hdrOut1 (v : Word) : (r.setLenIn v).hdrOut1 = r.hdrOut1 := rfl
@[simp] theorem Regs.setLenIn_hdrLen (v : Word) : (r.setLenIn v).hdrLen = r.hdrLen := rfl
@[simp] theorem Regs.setLenIn_sizeOut (v : Word) : (r.setLenIn v).sizeOut = r.sizeOut := rfl
@[simp] theorem Regs.setLenIn_bufLen (v : Word) : (r.setLenIn v).bufLen = r.bufLen := rfl
@[simp] theorem Regs.setLenIn_win0 (v : Word) : (r.setLenIn v).win0 = r.win0 := rfl
@[simp] theorem Regs.setLenIn_win1 (v : Word) : (r.setLenIn v).win1 = r.win1 := rfl
@[simp] theorem Regs.setLenIn_dlenOut (v : Word) : (r.setLenIn v).dlenOut = r.dlenOut := rfl
@[simp] theorem Regs.setLenIn_dconsOut (v : Word) : (r.setLenIn v).dconsOut = r.dconsOut := rfl

/-! ### `Regs.setBufLen` -/

@[simp] theorem Regs.setBufLen_err (v : Word) : (r.setBufLen v).err = r.err := rfl
@[simp] theorem Regs.setBufLen_lastop (v : Word) : (r.setBufLen v).lastop = r.lastop := rfl
@[simp] theorem Regs.setBufLen_tagfIn (v : Word) : (r.setBufLen v).tagfIn = r.tagfIn := rfl
@[simp] theorem Regs.setBufLen_tagIn (v : Word) : (r.setBufLen v).tagIn = r.tagIn := rfl
@[simp] theorem Regs.setBufLen_tagOut (v : Word) : (r.setBufLen v).tagOut = r.tagOut := rfl
@[simp] theorem Regs.setBufLen_tagfOut (v : Word) : (r.setBufLen v).tagfOut = r.tagfOut := rfl
@[simp] theorem Regs.setBufLen_lenIn (v : Word) : (r.setBufLen v).lenIn = r.lenIn := rfl
@[simp] theorem Regs.setBufLen_hdrOut0 (v : Word) : (r.setBufLen v).hdrOut0 = r.hdrOut0 := rfl
@[simp] theorem Regs.setBufLen_hdrOut1 (v : Word) : (r.setBufLen v).hdrOut1 = r.hdrOut1 := rfl
@[simp] theorem Regs.setBufLen_hdrLen (v : Word) : (r.setBufLen v).hdrLen = r.hdrLen := rfl
@[simp] theorem Regs.setBufLen_sizeOut (v : Word) : (r.setBufLen v).sizeOut = r.sizeOut := rfl
@[simp] theorem Regs.setBufLen_bufLen (v : Word) : (r.setBufLen v).bufLen = v := rfl
@[simp] theorem Regs.setBufLen_win0 (v : Word) : (r.setBufLen v).win0 = r.win0 := rfl
@[simp] theorem Regs.setBufLen_win1 (v : Word) : (r.setBufLen v).win1 = r.win1 := rfl
@[simp] theorem Regs.setBufLen_dlenOut (v : Word) : (r.setBufLen v).dlenOut = r.dlenOut := rfl
@[simp] theorem Regs.setBufLen_dconsOut (v : Word) : (r.setBufLen v).dconsOut = r.dconsOut := rfl

/-! ### `Regs.setWin0` -/

@[simp] theorem Regs.setWin0_err (v : Word) : (r.setWin0 v).err = r.err := rfl
@[simp] theorem Regs.setWin0_lastop (v : Word) : (r.setWin0 v).lastop = r.lastop := rfl
@[simp] theorem Regs.setWin0_tagfIn (v : Word) : (r.setWin0 v).tagfIn = r.tagfIn := rfl
@[simp] theorem Regs.setWin0_tagIn (v : Word) : (r.setWin0 v).tagIn = r.tagIn := rfl
@[simp] theorem Regs.setWin0_tagOut (v : Word) : (r.setWin0 v).tagOut = r.tagOut := rfl
@[simp] theorem Regs.setWin0_tagfOut (v : Word) : (r.setWin0 v).tagfOut = r.tagfOut := rfl
@[simp] theorem Regs.setWin0_lenIn (v : Word) : (r.setWin0 v).lenIn = r.lenIn := rfl
@[simp] theorem Regs.setWin0_hdrOut0 (v : Word) : (r.setWin0 v).hdrOut0 = r.hdrOut0 := rfl
@[simp] theorem Regs.setWin0_hdrOut1 (v : Word) : (r.setWin0 v).hdrOut1 = r.hdrOut1 := rfl
@[simp] theorem Regs.setWin0_hdrLen (v : Word) : (r.setWin0 v).hdrLen = r.hdrLen := rfl
@[simp] theorem Regs.setWin0_sizeOut (v : Word) : (r.setWin0 v).sizeOut = r.sizeOut := rfl
@[simp] theorem Regs.setWin0_bufLen (v : Word) : (r.setWin0 v).bufLen = r.bufLen := rfl
@[simp] theorem Regs.setWin0_win0 (v : Word) : (r.setWin0 v).win0 = v := rfl
@[simp] theorem Regs.setWin0_win1 (v : Word) : (r.setWin0 v).win1 = r.win1 := rfl
@[simp] theorem Regs.setWin0_dlenOut (v : Word) : (r.setWin0 v).dlenOut = r.dlenOut := rfl
@[simp] theorem Regs.setWin0_dconsOut (v : Word) : (r.setWin0 v).dconsOut = r.dconsOut := rfl

/-! ### `Regs.setWin1` -/

@[simp] theorem Regs.setWin1_err (v : BitVec 16) : (r.setWin1 v).err = r.err := rfl
@[simp] theorem Regs.setWin1_lastop (v : BitVec 16) : (r.setWin1 v).lastop = r.lastop := rfl
@[simp] theorem Regs.setWin1_tagfIn (v : BitVec 16) : (r.setWin1 v).tagfIn = r.tagfIn := rfl
@[simp] theorem Regs.setWin1_tagIn (v : BitVec 16) : (r.setWin1 v).tagIn = r.tagIn := rfl
@[simp] theorem Regs.setWin1_tagOut (v : BitVec 16) : (r.setWin1 v).tagOut = r.tagOut := rfl
@[simp] theorem Regs.setWin1_tagfOut (v : BitVec 16) : (r.setWin1 v).tagfOut = r.tagfOut := rfl
@[simp] theorem Regs.setWin1_lenIn (v : BitVec 16) : (r.setWin1 v).lenIn = r.lenIn := rfl
@[simp] theorem Regs.setWin1_hdrOut0 (v : BitVec 16) : (r.setWin1 v).hdrOut0 = r.hdrOut0 := rfl
@[simp] theorem Regs.setWin1_hdrOut1 (v : BitVec 16) : (r.setWin1 v).hdrOut1 = r.hdrOut1 := rfl
@[simp] theorem Regs.setWin1_hdrLen (v : BitVec 16) : (r.setWin1 v).hdrLen = r.hdrLen := rfl
@[simp] theorem Regs.setWin1_sizeOut (v : BitVec 16) : (r.setWin1 v).sizeOut = r.sizeOut := rfl
@[simp] theorem Regs.setWin1_bufLen (v : BitVec 16) : (r.setWin1 v).bufLen = r.bufLen := rfl
@[simp] theorem Regs.setWin1_win0 (v : BitVec 16) : (r.setWin1 v).win0 = r.win0 := rfl
@[simp] theorem Regs.setWin1_win1 (v : BitVec 16) : (r.setWin1 v).win1 = v := rfl
@[simp] theorem Regs.setWin1_dlenOut (v : BitVec 16) : (r.setWin1 v).dlenOut = r.dlenOut := rfl
@[simp] theorem Regs.setWin1_dconsOut (v : BitVec 16) : (r.setWin1 v).dconsOut = r.dconsOut := rfl

/-! ### `Regs.setTagOut` -/

@[simp] theorem Regs.setTagOut_err (t : Byte) : (r.setTagOut t).err = r.err := rfl
@[simp] theorem Regs.setTagOut_lastop (t : Byte) : (r.setTagOut t).lastop = r.lastop := rfl
@[simp] theorem Regs.setTagOut_tagfIn (t : Byte) : (r.setTagOut t).tagfIn = r.tagfIn := rfl
@[simp] theorem Regs.setTagOut_tagIn (t : Byte) : (r.setTagOut t).tagIn = r.tagIn := rfl
@[simp] theorem Regs.setTagOut_tagOut (t : Byte) : (r.setTagOut t).tagOut = t := rfl
@[simp] theorem Regs.setTagOut_tagfOut (t : Byte) : (r.setTagOut t).tagfOut = r.tagfOut := rfl
@[simp] theorem Regs.setTagOut_lenIn (t : Byte) : (r.setTagOut t).lenIn = r.lenIn := rfl
@[simp] theorem Regs.setTagOut_hdrOut0 (t : Byte) : (r.setTagOut t).hdrOut0 = r.hdrOut0 := rfl
@[simp] theorem Regs.setTagOut_hdrOut1 (t : Byte) : (r.setTagOut t).hdrOut1 = r.hdrOut1 := rfl
@[simp] theorem Regs.setTagOut_hdrLen (t : Byte) : (r.setTagOut t).hdrLen = r.hdrLen := rfl
@[simp] theorem Regs.setTagOut_sizeOut (t : Byte) : (r.setTagOut t).sizeOut = r.sizeOut := rfl
@[simp] theorem Regs.setTagOut_bufLen (t : Byte) : (r.setTagOut t).bufLen = r.bufLen := rfl
@[simp] theorem Regs.setTagOut_win0 (t : Byte) : (r.setTagOut t).win0 = r.win0 := rfl
@[simp] theorem Regs.setTagOut_win1 (t : Byte) : (r.setTagOut t).win1 = r.win1 := rfl
@[simp] theorem Regs.setTagOut_dlenOut (t : Byte) : (r.setTagOut t).dlenOut = r.dlenOut := rfl
@[simp] theorem Regs.setTagOut_dconsOut (t : Byte) : (r.setTagOut t).dconsOut = r.dconsOut := rfl

/-! ### `Regs.setTagfOut` -/

@[simp] theorem Regs.setTagfOut_err (t : TagFields) : (r.setTagfOut t).err = r.err := rfl
@[simp] theorem Regs.setTagfOut_lastop (t : TagFields) : (r.setTagfOut t).lastop = r.lastop := rfl
@[simp] theorem Regs.setTagfOut_tagfIn (t : TagFields) : (r.setTagfOut t).tagfIn = r.tagfIn := rfl
@[simp] theorem Regs.setTagfOut_tagIn (t : TagFields) : (r.setTagfOut t).tagIn = r.tagIn := rfl
@[simp] theorem Regs.setTagfOut_tagOut (t : TagFields) : (r.setTagfOut t).tagOut = r.tagOut := rfl
@[simp] theorem Regs.setTagfOut_tagfOut (t : TagFields) : (r.setTagfOut t).tagfOut = t := rfl
@[simp] theorem Regs.setTagfOut_lenIn (t : TagFields) : (r.setTagfOut t).lenIn = r.lenIn := rfl
@[simp] theorem Regs.setTagfOut_hdrOut0 (t : TagFields) : (r.setTagfOut t).hdrOut0 = r.hdrOut0 := rfl
@[simp] theorem Regs.setTagfOut_hdrOut1 (t : TagFields) : (r.setTagfOut t).hdrOut1 = r.hdrOut1 := rfl
@[simp] theorem Regs.setTagfOut_hdrLen (t : TagFields) : (r.setTagfOut t).hdrLen = r.hdrLen := rfl
@[simp] theorem Regs.setTagfOut_sizeOut (t : TagFields) : (r.setTagfOut t).sizeOut = r.sizeOut := rfl
@[simp] theorem Regs.setTagfOut_bufLen (t : TagFields) : (r.setTagfOut t).bufLen = r.bufLen := rfl
@[simp] theorem Regs.setTagfOut_win0 (t : TagFields) : (r.setTagfOut t).win0 = r.win0 := rfl
@[simp] theorem Regs.setTagfOut_win1 (t : TagFields) : (r.setTagfOut t).win1 = r.win1 := rfl
@[simp] theorem Regs.setTagfOut_dlenOut (t : TagFields) : (r.setTagfOut t).dlenOut = r.dlenOut := rfl
@[simp] theorem Regs.setTagfOut_dconsOut (t : TagFields) : (r.setTagfOut t).dconsOut = r.dconsOut := rfl

/-! ### `Regs.setHeader` -/

@[simp] theorem Regs.setHeader_err (h0 : Word) (h1 : Byte) (n : BitVec 3) : (r.setHeader h0 h1 n).err = r.err := rfl
@[simp] theorem Regs.setHeader_lastop (h0 : Word) (h1 : Byte) (n : BitVec 3) : (r.setHeader h0 h1 n).lastop = r.lastop := rfl
@[simp] theorem Regs.setHeader_tagfIn (h0 : Word) (h1 : Byte) (n : BitVec 3) : (r.setHeader h0 h1 n).tagfIn = r.tagfIn := rfl
@[simp] theorem Regs.setHeader_tagIn (h0 : Word) (h1 : Byte) (n : BitVec 3) : (r.setHeader h0 h1 n).tagIn = r.tagIn := rfl
@[simp] theorem Regs.setHeader_tagOut (h0 : Word) (h1 : Byte) (n : BitVec 3) : (r.setHeader h0 h1 n).tagOut = r.tagOut := rfl
@[simp] theorem Regs.setHeader_tagfOut (h0 : Word) (h1 : Byte) (n : BitVec 3) : (r.setHeader h0 h1 n).tagfOut = r.tagfOut := rfl
@[simp] theorem Regs.setHeader_lenIn (h0 : Word) (h1 : Byte) (n : BitVec 3) : (r.setHeader h0 h1 n).lenIn = r.lenIn := rfl
@[simp] theorem Regs.setHeader_hdrOut0 (h0 : Word) (h1 : Byte) (n : BitVec 3) : (r.setHeader h0 h1 n).hdrOut0 = h0 := rfl
@[simp] theorem Regs.setHeader_hdrOut1 (h0 : Word) (h1 : Byte) (n : BitVec 3) : (r.setHeader h0 h1 n).hdrOut1 = h1 := rfl
@[simp] theorem Regs.setHeader_hdrLen (h0 : Word) (h1 : Byte) (n : BitVec 3) : (r.setHeader h0 h1 n).hdrLen = n := rfl
@[simp] theorem Regs.setHeader_sizeOut (h0 : Word) (h1 : Byte) (n : BitVec 3) : (r.setHeader h0 h1 n).sizeOut = r.sizeOut := rfl
@[simp] theorem Regs.setHeader_bufLen (h0 : Word) (h1 : Byte) (n : BitVec 3) : (r.setHeader h0 h1 n).bufLen = r.bufLen := rfl
@[simp] theorem Regs.setHeader_win0 (h0 : Word) (h1 : Byte) (n : BitVec 3) : (r.setHeader h0 h1 n).win0 = r.win0 := rfl
@[simp] theorem Regs.setHeader_win1 (h0 : Word) (h1 : Byte) (n : BitVec 3) : (r.setHeader h0 h1 n).win1 = r.win1 := rfl
@[simp] theorem Regs.setHeader_dlenOut (h0 : Word) (h1 : Byte) (n : BitVec 3) : (r.setHeader h0 h1 n).dlenOut = r.dlenOut := rfl
@[simp] theorem Regs.setHeader_dconsOut (h0 : Word) (h1 : Byte) (n : BitVec 3) : (r.setHeader h0 h1 n).dconsOut = r.dconsOut := rfl

/-! ### `Regs.setSizeOut` -/

@[simp] theorem Regs.setSizeOut_err (n : BitVec 3) : (r.setSizeOut n).err = r.err := rfl
@[simp] theorem Regs.setSizeOut_lastop (n : BitVec 3) : (r.setSizeOut n).lastop = r.lastop := rfl
@[simp] theorem Regs.setSizeOut_tagfIn (n : BitVec 3) : (r.setSizeOut n).tagfIn = r.tagfIn := rfl
@[simp] theorem Regs.setSizeOut_tagIn (n : BitVec 3) : (r.setSizeOut n).tagIn = r.tagIn := rfl
@[simp] theorem Regs.setSizeOut_tagOut (n : BitVec 3) : (r.setSizeOut n).tagOut = r.tagOut := rfl
@[simp] theorem Regs.setSizeOut_tagfOut (n : BitVec 3) : (r.setSizeOut n).tagfOut = r.tagfOut := rfl
@[simp] theorem Regs.setSizeOut_lenIn (n : BitVec 3) : (r.setSizeOut n).lenIn = r.lenIn := rfl
@[simp] theorem Regs.setSizeOut_hdrOut0 (n : BitVec 3) : (r.setSizeOut n).hdrOut0 = r.hdrOut0 := rfl
@[simp] theorem Regs.setSizeOut_hdrOut1 (n : BitVec 3) : (r.setSizeOut n).hdrOut1 = r.hdrOut1 := rfl
@[simp] theorem Regs.setSizeOut_hdrLen (n : BitVec 3) : (r.setSizeOut n).hdrLen = r.hdrLen := rfl
@[simp] theorem Regs.setSizeOut_sizeOut (n : BitVec 3) : (r.setSizeOut n).sizeOut = n := rfl
@[simp] theorem Regs.setSizeOut_bufLen (n : BitVec 3) : (r.setSizeOut n).bufLen = r.bufLen := rfl
@[simp] theorem Regs.setSizeOut_win0 (n : BitVec 3) : (r.setSizeOut n).win0 = r.win0 := rfl
@[simp] theorem Regs.setSizeOut_win1 (n : BitVec 3) : (r.setSizeOut n).win1 = r.win1 := rfl
@[simp] theorem Regs.setSizeOut_dlenOut (n : BitVec 3) : (r.setSizeOut n).dlenOut = r.dlenOut := rfl
@[simp] theorem Regs.setSizeOut_dconsOut (n : BitVec 3) : (r.setSizeOut n).dconsOut = r.dconsOut := rfl

/-! ### `Regs.setDecoded` -/

@[simp] theorem Regs.setDecoded_err (len : Word) (cons : BitVec 3) : (r.setDecoded len cons).err = r.err := rfl
@[simp] theorem Regs.setDecoded_lastop (len : Word) (cons : BitVec 3) : (r.setDecoded len cons).lastop = r.lastop := rfl
@[simp] theorem Regs.setDecoded_tagfIn (len : Word) (cons : BitVec 3) : (r.setDecoded len cons).tagfIn = r.tagfIn := rfl
@[simp] theorem Regs.setDecoded_tagIn (len : Word) (cons : BitVec 3) : (r.setDecoded len cons).tagIn = r.tagIn := rfl
@[simp] theorem Regs.setDecoded_tagOut (len : Word) (cons : BitVec 3) : (r.setDecoded len cons).tagOut = r.tagOut := rfl
@[simp] theorem Regs.setDecoded_tagfOut (len : Word) (cons : BitVec 3) : (r.setDecoded len cons).tagfOut = r.tagfOut := rfl
@[simp] theorem Regs.setDecoded_lenIn (len : Word) (cons : BitVec 3) : (r.setDecoded len cons).lenIn = r.lenIn := rfl
@[simp] theorem Regs.setDecoded_hdrOut0 (len : Word) (cons : BitVec 3) : (r.setDecoded len cons).hdrOut0 = r.hdrOut0 := rfl
@[simp] theorem Regs.setDecoded_hdrOut1 (len : Word) (cons : BitVec 3) : (r.setDecoded len cons).hdrOut1 = r.hdrOut1 := rfl
@[simp] theorem Regs.setDecoded_hdrLen (len : Word) (cons : BitVec 3) : (r.setDecoded len cons).hdrLen = r.hdrLen := rfl
@[simp] theorem Regs.setDecoded_sizeOut (len : Word) (cons : BitVec 3) : (r.setDecoded len cons).sizeOut = r.sizeOut := rfl
@[simp] theorem Regs.setDecoded_bufLen (len : Word) (cons : BitVec 3) : (r.setDecoded len cons).bufLen = r.bufLen := rfl
@[simp] theorem Regs.setDecoded_win0 (len : Word) (cons : BitVec 3) : (r.setDecoded len cons).win0 = r.win0 := rfl
@[simp] theorem Regs.setDecoded_win1 (len : Word) (cons : BitVec 3) : (r.setDecoded len cons).win1 = r.win1 := rfl
@[simp] theorem Regs.setDecoded_dlenOut (len : Word) (cons : BitVec 3) : (r.setDecoded len cons).dlenOut = len := rfl
@[simp] theorem Regs.setDecoded_dconsOut (len : Word) (cons : BitVec 3) : (r.setDecoded len cons).dconsOut = cons := rfl

/-! ### `State.setRegs` -/

@[simp] theorem State.setRegs_cfg (q : Regs) : (s.setRegs q).cfg = s.cfg := rfl
@[simp] theorem State.setRegs_regs (q : Regs) : (s.setRegs q).regs = q := rfl
@[simp] theorem State.setRegs_inputs (q : Regs) : (s.setRegs q).inputs = s.inputs := rfl
@[simp] theorem State.setRegs_reads (q : Regs) : (s.setRegs q).reads = s.reads := rfl

/-! ### `State.setInputs` -/

@[simp] theorem State.setInputs_cfg (es : List HostEvent) : (s.setInputs es).cfg = s.cfg := rfl
@[simp] theorem State.setInputs_regs (es : List HostEvent) : (s.setInputs es).regs = s.regs := rfl
@[simp] theorem State.setInputs_inputs (es : List HostEvent) : (s.setInputs es).inputs = es := rfl
@[simp] theorem State.setInputs_reads (es : List HostEvent) : (s.setInputs es).reads = s.reads := rfl

/-! ### `State.pushRead` -/

@[simp] theorem State.pushRead_cfg (v : Word) : (s.pushRead v).cfg = s.cfg := rfl
@[simp] theorem State.pushRead_regs (v : Word) : (s.pushRead v).regs = s.regs := rfl
@[simp] theorem State.pushRead_inputs (v : Word) : (s.pushRead v).inputs = s.inputs := rfl
@[simp] theorem State.pushRead_reads (v : Word) : (s.pushRead v).reads = v :: s.reads := rfl

end Sys2Proof.Machine
end

