-- ==== Sys2Proof/Laws/Ops.lean ====
section
/-! SUPPORT. One lemma for each shared operation, saying everything it can do. -/

namespace Sys2Proof.Machine

/-! ## The end of a command -/

theorem finish_eq_next (s t : State) (r : Regs) (e : ErrCode) (op : BitVec 4) :
    finish s r e op = .next t ↔ t = s.setRegs (r.report e op) := by
  simp [finish, eq_comm]

/-! ## The window -/

theorem Reg.mem_all (r : Reg) : r ∈ Reg.all := by
  cases r <;> decide

theorem regAt_offset (r : Reg) : regAt r.offset = some r := by
  cases r <;> rfl

theorem regAt_eq_some_iff (off : Nat) (r : Reg) : regAt off = some r ↔ off = r.offset := by
  constructor
  · intro h
    have := List.find?_some h
    simp only [beq_iff_eq] at this
    exact this.symm
  · rintro rfl
    exact regAt_offset r

/-- The registers sit at every multiple of 4 from 0x00 to 0x3C (R50). -/
theorem regAt_isSome_iff (off : Nat) : (∃ r, regAt off = some r) ↔ off < 0x40 ∧ off % 4 = 0 := by
  constructor
  · rintro ⟨r, h⟩
    rw [regAt_eq_some_iff] at h
    subst h
    cases r <;> decide
  · rintro ⟨h1, h2⟩
    interval_cases off <;> first | (exact absurd h2 (by decide)) | exact ⟨_, rfl⟩

theorem decodeAddress_eq_some_iff (c : Config) (addr : Nat) (r : Reg) :
    decodeAddress c addr = some r ↔ addr = r.addr c := by
  unfold decodeAddress Reg.addr
  split
  · rw [regAt_eq_some_iff]; omega
  · simp only [reduceCtorEq, false_iff]; omega

theorem Reg.addr_injective (c : Config) (q r : Reg) : q.addr c = r.addr c ↔ q = r := by
  constructor
  · intro h
    have := (decodeAddress_eq_some_iff c _ r).2 h
    rw [(decodeAddress_eq_some_iff c _ q).2 rfl] at this
    exact Option.some.inj this
  · rintro rfl; rfl

theorem Reg.addr_aligned (c : Config) (r : Reg) : r.addr c % 4 = 0 := by
  unfold Reg.addr Config.baseAddr windowBytes
  have : r.offset % 4 = 0 := by cases r <;> rfl
  omega

/-- An access reaches a register exactly when it is a 32-bit access to that register's address. -/
theorem checkAccess_eq_ok_iff (c : Config) (a : Access) (r : Reg) :
    checkAccess c a = .ok r ↔ a.width = .w32 ∧ a.addr = r.addr c := by
  unfold checkAccess
  split
  · next h => simp [h]
  · next h =>
    have hw : a.width = .w32 := by simpa using h
    split
    · next h2 =>
      simp only [reduceCtorEq, false_iff, not_and]
      intro _ h3
      exact h2 (h3 ▸ Reg.addr_aligned c r)
    · cases hd : decodeAddress c a.addr with
      | some q =>
        rw [decodeAddress_eq_some_iff] at hd
        simp [hd, Reg.addr_injective, hw]
      | none =>
        simp only [reduceCtorEq, false_iff, not_and]
        intro _ h3
        rw [(decodeAddress_eq_some_iff c _ r).2 h3] at hd
        cases hd

/-- The access to a register is admitted, and reaches it. -/
theorem checkAccess_access (c : Config) (r : Reg) (op : BusOp) : checkAccess c ⟨.w32, r.addr c, op⟩ = .ok r :=
  (checkAccess_eq_ok_iff c _ r).2 ⟨rfl, rfl⟩

/-- The well-formed accesses are the 32-bit accesses to the registers' addresses. -/
theorem Access.wellFormed_iff (c : Config) (a : Access) :
    a.wellFormed c = true ↔ a.width = .w32 ∧ ∃ r : Reg, a.addr = r.addr c := by
  have key : (∃ r : Reg, a.addr = r.addr c) ↔
      a.addr % 4 = 0 ∧ c.baseAddr ≤ a.addr ∧ a.addr < c.baseAddr + windowBytes := by
    constructor
    · rintro ⟨r, h⟩
      refine ⟨h ▸ Reg.addr_aligned c r, ?_, ?_⟩
      · rw [h]; exact Nat.le_add_right _ _
      · rw [h]; exact Nat.add_lt_add_left (by cases r <;> decide) _
    · rintro ⟨h1, h2, h3⟩
      have ha : c.baseAddr % 4 = 0 := by unfold Config.baseAddr windowBytes; omega
      unfold windowBytes at h3
      obtain ⟨r, hr⟩ := (regAt_isSome_iff (a.addr - c.baseAddr)).2 ⟨by omega, by omega⟩
      rw [regAt_eq_some_iff] at hr
      exact ⟨r, by unfold Reg.addr; omega⟩
  simp only [Access.wellFormed, Bool.and_eq_true, beq_iff_eq, decide_eq_true_eq, key]
  tauto

/-- The admitted accesses are the well-formed ones. -/
theorem checkAccess_isOk_iff (c : Config) (a : Access) : (∃ r, checkAccess c a = .ok r) ↔ a.wellFormed c = true := by
  simp only [checkAccess_eq_ok_iff, Access.wellFormed_iff, exists_and_left]

/-- Every refusal names a reason that holds of the access. -/
theorem checkAccess_eq_error (c : Config) (a : Access) (e : Refusal) (h : checkAccess c a = .error e) :
    (e = .narrowAccess a.width ∧ a.width ≠ .w32) ∨ (e = .misalignedAccess a.addr ∧ a.addr % 4 ≠ 0) ∨
      (e = .outOfWindow a.addr ∧ (a.addr < c.baseAddr ∨ c.baseAddr + 0x40 ≤ a.addr)) := by
  unfold checkAccess at h
  split at h
  · next hw => cases h; exact .inl ⟨rfl, hw⟩
  · split at h
    · next ha => cases h; exact .inr (.inl ⟨rfl, ha⟩)
    · next ha =>
      cases hd : decodeAddress c a.addr with
      | some q => rw [hd] at h; cases h
      | none =>
        rw [hd] at h
        cases h
        refine .inr (.inr ⟨rfl, ?_⟩)
        by_contra hin
        have hb : c.baseAddr % 4 = 0 := by unfold Config.baseAddr windowBytes; omega
        obtain ⟨r, hr⟩ := (regAt_isSome_iff (a.addr - c.baseAddr)).2 ⟨by omega, by omega⟩
        rw [regAt_eq_some_iff] at hr
        rw [(decodeAddress_eq_some_iff c a.addr r).2 (by unfold Reg.addr; omega)] at hd
        cases hd

/-! ## Storing -/

theorem Regs.store_of_not_operand (rs : Regs) (r : Reg) (v : Word) (h : r.isOperand = false) :
    rs.store r v = rs := by
  cases r <;> first | rfl | cases h

theorem Regs.read_store_other (rs : Regs) (q r : Reg) (v : Word) (h : q ≠ r) :
    (rs.store r v).read q = rs.read q := by
  cases r <;> cases q <;> first | rfl | exact absurd rfl h

theorem TagFields.toWord_ofWord (v : Word) : (TagFields.ofWord v).toWord = v &&& 0x001F0103 := by
  apply BitVec.eq_of_getLsbD_eq
  intro j hj
  interval_cases j <;> simp [TagFields.toWord, TagFields.ofWord]

theorem Regs.read_store_same (rs : Regs) (r : Reg) (v : Word) (h : r.isOperand = true) :
    (rs.store r v).read r = v &&& r.fieldMask := by
  cases r <;> first | (cases h; done) | skip
  case tagfIn => exact TagFields.toWord_ofWord v
  all_goals
    apply BitVec.eq_of_getLsbD_eq
    intro j hj
    interval_cases j <;> simp [Regs.store, Regs.read, Reg.fieldMask]

end Sys2Proof.Machine
end

