-- ==== Sys2Proof/Laws/PerInstr.lean ====
section
/-! SUPPORT. What holds of each instruction as syntax, one lemma per constructor. -/

namespace Sys2Proof.Laws.Encoding

/-- An instruction is well formed, its command word is its opcode with 0 in the ignored bits (R70, R73), and the decoder
reads it back from that word. -/
def Statement (i : Instr) : Prop :=
  i.wellFormed = true ∧ (encode i).toNat = i.opcode.toNat ∧ decodeWord (encode i) = i

theorem tagPack : Statement .tagPack := ⟨rfl, rfl, rfl⟩
theorem tagUnpack : Statement .tagUnpack := ⟨rfl, rfl, rfl⟩
theorem lenEncode : Statement .lenEncode := ⟨rfl, rfl, rfl⟩
theorem lenSize : Statement .lenSize := ⟨rfl, rfl, rfl⟩
theorem lenDecode : Statement .lenDecode := ⟨rfl, rfl, rfl⟩
theorem illegal0 : Statement .illegal0 := ⟨rfl, rfl, rfl⟩
theorem illegal6 : Statement .illegal6 := ⟨rfl, rfl, rfl⟩
theorem illegal7 : Statement .illegal7 := ⟨rfl, rfl, rfl⟩
theorem illegal8 : Statement .illegal8 := ⟨rfl, rfl, rfl⟩
theorem illegal9 : Statement .illegal9 := ⟨rfl, rfl, rfl⟩
theorem illegalA : Statement .illegalA := ⟨rfl, rfl, rfl⟩
theorem illegalB : Statement .illegalB := ⟨rfl, rfl, rfl⟩
theorem illegalC : Statement .illegalC := ⟨rfl, rfl, rfl⟩
theorem illegalD : Statement .illegalD := ⟨rfl, rfl, rfl⟩
theorem illegalE : Statement .illegalE := ⟨rfl, rfl, rfl⟩
theorem illegalF : Statement .illegalF := ⟨rfl, rfl, rfl⟩

end Sys2Proof.Laws.Encoding
end

