-- ==== Sys2Proof/Laws/Step.lean ====
section
/-! SUPPORT. What each instruction and each step does, said once, and the one induction over runs. -/

namespace Sys2Proof.Machine

/-! ## The instructions -/

/-- The registers after each instruction: its results, then its status. -/
def regsAfter (i : Instr) (r : Regs) : Regs :=
  match i with
  | .tagPack => (r.setTagOut (packTag r.tagfIn)).report .ok i.opcode
  | .tagUnpack => (r.setTagfOut (unpackTag r.tagIn)).report .ok i.opcode
  | .lenEncode =>
    (r.setHeader
      (wordOfLanes ((padHeader (enc r.lenIn)).getD 0 0) ((padHeader (enc r.lenIn)).getD 1 0)
        ((padHeader (enc r.lenIn)).getD 2 0) ((padHeader (enc r.lenIn)).getD 3 0))
      ((padHeader (enc r.lenIn)).getD 4 0) (BitVec.ofNat 3 (enc r.lenIn).length)).report .ok i.opcode
  | .lenSize => (r.setSizeOut (BitVec.ofNat 3 (hdrsize r.lenIn))).report .ok i.opcode
  | .lenDecode =>
    match dec r.bufLen r.window with
    | .ok p => (r.setDecoded (BitVec.ofNat 32 p.1) (BitVec.ofNat 3 p.2)).report .ok i.opcode
    | .error e => (r.setDecoded 0 0).report e i.opcode
  | .illegal0 | .illegal6 | .illegal7 | .illegal8 | .illegal9 | .illegalA
  | .illegalB | .illegalC | .illegalD | .illegalE | .illegalF => r.report .illegalCommand i.opcode

/-- Every instruction completes, and changes nothing but registers. -/
theorem exec_eq (i : Instr) (s : State) : exec i s = .next (s.setRegs (regsAfter i s.regs)) := by
  cases i
  case lenDecode =>
    simp only [exec, execLenDecode, regsAfter]
    cases dec s.regs.bufLen s.regs.window <;> rfl
  all_goals rfl

theorem regsAfter_lastop (i : Instr) (r : Regs) : (regsAfter i r).lastop = i.opcode := by
  cases i
  case lenDecode => simp only [regsAfter]; split <;> rfl
  all_goals rfl

/-- No instruction writes an operand register (R83). -/
theorem regsAfter_read_operand (i : Instr) (r : Regs) (q : Reg) (h : q.isOperand = true) :
    (regsAfter i r).read q = r.read q := by
  cases i
  case lenDecode =>
    simp only [regsAfter]
    cases q <;> first | (cases h; done) | (split <;> rfl)
  all_goals cases q <;> first | (cases h; done) | rfl

/-! ### The header registers -/

theorem wordOfLanes_lane (b0 b1 b2 b3 : Byte) :
    (wordOfLanes b0 b1 b2 b3).extractLsb' 0 8 = b0 ∧ (wordOfLanes b0 b1 b2 b3).extractLsb' 8 8 = b1 ∧
    (wordOfLanes b0 b1 b2 b3).extractLsb' 16 8 = b2 ∧ (wordOfLanes b0 b1 b2 b3).extractLsb' 24 8 = b3 := by
  have h0 := b0.isLt
  have h1 := b1.isLt
  have h2 := b2.isLt
  have h3 := b3.isLt
  have w := wordOfLanes_toNat b0 b1 b2 b3
  refine ⟨?_, ?_, ?_, ?_⟩ <;> apply BitVec.eq_of_toNat_eq <;>
    rw [BitVec.extractLsb'_toNat, Nat.shiftRight_eq_div_pow, w] <;> omega

theorem ofNat_toNat_of_le (n : Nat) (h : n ≤ 7) : (BitVec.ofNat 3 n).toNat = n := by
  rw [BitVec.toNat_ofNat]
  omega

/-- After LEN_ENCODE the header view is the padded header in wire order (R42, R123). -/
theorem regsAfter_lenEncode_header (r : Regs) : (regsAfter .lenEncode r).header = padHeader (enc r.lenIn) := by
  match hp : padHeader (enc r.lenIn), padHeader_length r.lenIn with
  | [p0, p1, p2, p3, p4], _ =>
    obtain ⟨h0, h1, h2, h3⟩ := wordOfLanes_lane p0 p1 p2 p3
    simp only [regsAfter, hp, Regs.header, Regs.report_hdrOut0, Regs.report_hdrOut1, Regs.setHeader_hdrOut0,
      Regs.setHeader_hdrOut1, List.getD_cons_zero, List.getD_cons_succ, h0, h1, h2, h3]

theorem regsAfter_lenEncode_hdrLen (r : Regs) : (regsAfter .lenEncode r).hdrLen.toNat = hdrsize r.lenIn := by
  have := hdrsize_bounds r.lenIn
  simp only [regsAfter, Regs.report_hdrLen, Regs.setHeader_hdrLen, enc_length_eq_hdrsize]
  exact ofNat_toNat_of_le _ (by omega)

/-! ## Events and steps -/

/-- The events with a meaning are reset and the 32-bit accesses to the registers. -/
theorem HostEvent.wellFormed_iff (c : Config) (e : HostEvent) :
    e.wellFormed c = true ↔ e = .reset ∨ ∃ (r : Reg) (op : BusOp), e = r.access c op := by
  cases e with
  | reset => simp [HostEvent.wellFormed]
  | access a =>
    obtain ⟨w, addr, op⟩ := a
    rw [HostEvent.wellFormed, Access.wellFormed_iff]
    constructor
    · rintro ⟨rfl, r, rfl⟩
      exact .inr ⟨r, op, rfl⟩
    · rintro (h | ⟨r, q, h⟩)
      · cases h
      · cases h
        exact ⟨rfl, r, rfl⟩

theorem performAccess_register (s : State) (r : Reg) (op : BusOp) :
    performAccess ⟨.w32, r.addr s.cfg, op⟩ s = (match op with | .read => busRead r s | .write v => busWrite r v s) := by
  cases op <;> simp only [performAccess, checkAccess_access]

theorem busWrite_operand_or_readOnly (r : Reg) (v : Word) (s : State) (h : r ≠ .cmd) :
    busWrite r v s = .next (s.setRegs (s.regs.store r v)) := by
  cases r <;> first | rfl | exact absurd rfl h

theorem step_cons (s : State) (e : HostEvent) (rest : List HostEvent) (h : s.inputs = e :: rest) :
    step s = performEvent e (s.setInputs rest) := by
  unfold step performNext
  rw [h]

theorem step_idle (s : State) (h : s.inputs = []) : step s = .next s := by
  unfold step performNext
  rw [h]

theorem step_reset (s : State) (rest : List HostEvent) (h : s.inputs = .reset :: rest) :
    step s = .next ((s.setInputs rest).setRegs Regs.reset) :=
  step_cons s .reset rest h

theorem step_read (s : State) (r : Reg) (rest : List HostEvent) (h : s.inputs = r.access s.cfg .read :: rest) :
    step s = .next ((s.setInputs rest).pushRead (s.regs.read r)) :=
  (step_cons s _ rest h).trans (performAccess_register (s.setInputs rest) r .read)

theorem step_store (s : State) (r : Reg) (v : Word) (rest : List HostEvent) (hr : r ≠ .cmd)
    (h : s.inputs = r.access s.cfg (.write v) :: rest) :
    step s = .next ((s.setInputs rest).setRegs (s.regs.store r v)) :=
  ((step_cons s _ rest h).trans (performAccess_register (s.setInputs rest) r (.write v))).trans
    (busWrite_operand_or_readOnly r v (s.setInputs rest) hr)

theorem step_command (s : State) (v : Word) (rest : List HostEvent)
    (h : s.inputs = Reg.cmd.access s.cfg (.write v) :: rest) :
    step s = .next ((s.setInputs rest).setRegs (regsAfter (decodeWord v) s.regs)) :=
  ((step_cons s _ rest h).trans (performAccess_register (s.setInputs rest) .cmd (.write v))).trans
    (exec_eq (decodeWord v) (s.setInputs rest))

/-- Everything a step can do when it gives a next state: idle, reset, read, store, or run one command. -/
theorem step_cases (s t : State) (h : step s = .next t) :
    (s.inputs = [] ∧ t = s) ∨
    (∃ rest, s.inputs = .reset :: rest ∧ t = (s.setInputs rest).setRegs Regs.reset) ∨
    (∃ rest r, s.inputs = r.access s.cfg .read :: rest ∧ t = (s.setInputs rest).pushRead (s.regs.read r)) ∨
    (∃ rest r v, r ≠ Reg.cmd ∧ s.inputs = r.access s.cfg (.write v) :: rest ∧
      t = (s.setInputs rest).setRegs (s.regs.store r v)) ∨
    (∃ rest v, s.inputs = Reg.cmd.access s.cfg (.write v) :: rest ∧
      t = (s.setInputs rest).setRegs (regsAfter (decodeWord v) s.regs)) := by
  unfold step performNext at h
  split at h
  · next hi => cases h; exact .inl ⟨hi, rfl⟩
  · next e rest hi =>
    cases e with
    | reset => cases h; exact .inr (.inl ⟨rest, hi, rfl⟩)
    | access a =>
      simp only [performEvent, performAccess, State.setInputs_cfg] at h
      cases ha : checkAccess s.cfg a with
      | error e => rw [ha] at h; cases h
      | ok r =>
        rw [ha] at h
        obtain ⟨hw, hr⟩ := (checkAccess_eq_ok_iff s.cfg a r).1 ha
        obtain ⟨w, addr, op⟩ := a
        cases hw
        cases hr
        cases op with
        | read => cases h; exact .inr (.inr (.inl ⟨rest, r, hi, rfl⟩))
        | write v =>
          by_cases hc : r = .cmd
          · subst hc
            change exec (decodeWord v) _ = _ at h
            rw [exec_eq] at h
            cases h
            exact .inr (.inr (.inr (.inr ⟨rest, v, hi, rfl⟩)))
          · change busWrite r v _ = _ at h
            rw [busWrite_operand_or_readOnly r v _ hc] at h
            cases h
            exact .inr (.inr (.inr (.inl ⟨rest, r, v, hc, hi, rfl⟩)))

/-- No step changes the placement. -/
theorem step_cfg (s t : State) (h : step s = .next t) : t.cfg = s.cfg := by
  rcases step_cases s t h with ⟨_, rfl⟩ | ⟨_, _, rfl⟩ | ⟨_, _, _, rfl⟩ | ⟨_, _, _, _, _, rfl⟩ | ⟨_, _, _, rfl⟩ <;> rfl

/-! ## Runs -/

theorem runSteps_zero (s : State) : runSteps 0 s = .next s := rfl

theorem runSteps_succ (k : Nat) (s t : State) (h : step s = .next t) : runSteps (k + 1) s = runSteps k t := by
  simp only [runSteps, Host.Core.run]
  rw [show Sys2Proof.core.step s = .next t from h]

theorem runSteps_succ_inv (k : Nat) (s t : State) (h : runSteps (k + 1) s = .next t) :
    ∃ m, step s = .next m ∧ runSteps k m = .next t := by
  cases hs : step s with
  | next m => exact ⟨m, rfl, by rw [← h, runSteps_succ k s m hs]⟩
  | fault f => cases f
  | refused e =>
    simp only [runSteps, Host.Core.run] at h
    rw [show Sys2Proof.core.step s = .refused e from hs] at h
    cases h

/-- What every step keeps, every run keeps. -/
theorem runSteps_keeps (P : State → Prop) (hstep : ∀ s t, P s → step s = .next t → P t) (k : Nat) (s t : State)
    (hs : P s) (h : runSteps k s = .next t) : P t := by
  induction k generalizing s with
  | zero => cases h; exact hs
  | succ k ih =>
    obtain ⟨m, hm, hk⟩ := runSteps_succ_inv k s t h
    exact ih m (hstep s m hs hm) hk

end Sys2Proof.Machine
end

