-- ==== Sys2Proof/Tests/Slice0.lean ====
section
/-! SUPPORT. The model's own tests. Every expected value comes from the spec: the encodings of R70 and R71, the worked
examples and vectors of spec/95_test_vectors.md, and the corner cases of the commands' rules. The witnesses at the end
give, for each statement with hypotheses, concrete data that meet them. -/

namespace Sys2Proof.Tests

open Sys2Proof.Machine

/-! ## Helpers -/

def regsOf (o : Host.Outcome State Fault Refusal) : Option Regs :=
  match o with
  | .next s => some s.regs
  | .fault _ => none
  | .refused _ => none

def readsOf (o : Host.Outcome State Fault Refusal) : Option (List Word) :=
  match o with
  | .next s => some s.reads
  | .fault _ => none
  | .refused _ => none

def refusalOf (o : Host.Outcome State Fault Refusal) : Option Refusal :=
  match o with
  | .next _ => none
  | .fault _ => none
  | .refused e => some e

/-- A BERLEN in window 3 (`BASE_ADDR = 0xC0`) with the given registers. -/
def at3 (r : Regs) : State := { cfg := ⟨3⟩, regs := r, inputs := [], reads := [] }

/-- The same with one access to come. -/
def at3With (r : Regs) (a : Access) : State := { at3 r with inputs := [.access a] }

/-- The registers after a command, from reset but for the operands given. -/
def after (i : Instr) (r : Regs) : Option Regs := regsOf (exec i (at3 r))

/-! ## The smoke test of WellFormed: an ill-formed term for each check -/

theorem test_wf_access : Access.wellFormed ⟨3⟩ ⟨.w32, 0xFC, .read⟩ = true := by decide
theorem test_wf_refuses_byte_access : Access.wellFormed ⟨3⟩ ⟨.w8, 0xC0, .read⟩ = false := by decide
theorem test_wf_refuses_halfword_access : Access.wellFormed ⟨3⟩ ⟨.w16, 0xC0, .read⟩ = false := by decide
theorem test_wf_refuses_misaligned : Access.wellFormed ⟨3⟩ ⟨.w32, 0xC2, .write 1⟩ = false := by decide
theorem test_wf_refuses_above_window : Access.wellFormed ⟨3⟩ ⟨.w32, 0x100, .read⟩ = false := by decide
theorem test_wf_refuses_below_window : Access.wellFormed ⟨3⟩ ⟨.w32, 0xBC, .read⟩ = false := by decide
theorem test_wf_event_refuses_byte_access : HostEvent.wellFormed ⟨3⟩ (.access ⟨.w8, 0xC0, .read⟩) = false := by decide
theorem test_wf_tagf : HostLine.wellFormed (.tagf 3 1 31) = true := by decide
theorem test_wf_refuses_class_4 : HostLine.wellFormed (.tagf 4 0 0) = false := by decide
theorem test_wf_refuses_form_2 : HostLine.wellFormed (.tagf 0 2 0) = false := by decide
theorem test_wf_refuses_code_32 : HostLine.wellFormed (.tagf 0 0 32) = false := by decide
theorem test_wf_refuses_seven_bytes : HostLine.wellFormed (.win [0, 1, 2, 3, 4, 5, 6]) = false := by decide
theorem test_wf_refuses_cmd_illegal : HostLine.wellFormed (.cmd .illegal0) = false := by decide

/-! ## Decoding: a word of each row of the opcode table (R70, R71), and what is rejected (R74) -/

theorem test_decode_illegal0 : decode [0x00, 0x00, 0x00, 0x00] = .ok .illegal0 := by decide
theorem test_decode_tagPack : decode [0x01, 0x00, 0x00, 0x00] = .ok .tagPack := by decide
theorem test_decode_tagUnpack : decode [0x02, 0x00, 0x00, 0x00] = .ok .tagUnpack := by decide
theorem test_decode_lenEncode : decode [0x03, 0x00, 0x00, 0x00] = .ok .lenEncode := by decide
theorem test_decode_lenSize : decode [0x04, 0x00, 0x00, 0x00] = .ok .lenSize := by decide
theorem test_decode_lenDecode : decode [0x05, 0x00, 0x00, 0x00] = .ok .lenDecode := by decide
theorem test_decode_illegal6 : decode [0x06, 0x00, 0x00, 0x00] = .ok .illegal6 := by decide
theorem test_decode_illegal7 : decode [0x07, 0x00, 0x00, 0x00] = .ok .illegal7 := by decide
theorem test_decode_illegal8 : decode [0x08, 0x00, 0x00, 0x00] = .ok .illegal8 := by decide
theorem test_decode_illegal9 : decode [0x09, 0x00, 0x00, 0x00] = .ok .illegal9 := by decide
theorem test_decode_illegalA : decode [0x0A, 0x00, 0x00, 0x00] = .ok .illegalA := by decide
theorem test_decode_illegalB : decode [0x0B, 0x00, 0x00, 0x00] = .ok .illegalB := by decide
theorem test_decode_illegalC : decode [0x0C, 0x00, 0x00, 0x00] = .ok .illegalC := by decide
theorem test_decode_illegalD : decode [0x0D, 0x00, 0x00, 0x00] = .ok .illegalD := by decide
theorem test_decode_illegalE : decode [0x0E, 0x00, 0x00, 0x00] = .ok .illegalE := by decide
theorem test_decode_illegalF : decode [0x0F, 0x00, 0x00, 0x00] = .ok .illegalF := by decide

/-- `CMD 0x13` runs LEN_ENCODE (spec/95_test_vectors.md 2.5). -/
theorem test_decode_ignores_upper_bits : decode [0x13, 0x00, 0x00, 0x00] = .ok .lenEncode := by decide
theorem test_decode_ignores_upper_bytes : decode [0x05, 0xEF, 0xBE, 0xAD] = .ok .lenDecode := by decide
theorem test_decode_rejects_three_bytes : decode [0x01, 0x00, 0x00] = .error (.notOneWord 3) := by decide
theorem test_decode_rejects_five_bytes : decode [0x01, 0, 0, 0, 0] = .error (.notOneWord 5) := by decide
theorem test_decodeTableWord : decodeTableWord 32 0x00000004 = some .lenSize := by decide
theorem test_decodeTableWord_too_long : decodeTableWord 64 0x00000004 = none := by decide

/-! ## The commands -/

/-- spec/95_test_vectors.md 2.1. -/
theorem test_tagPack_vectors :
    ([(⟨0, 0, 0⟩, 0x00), (⟨0, 0, 4⟩, 0x04), (⟨0, 1, 16⟩, 0x30), (⟨1, 0, 0⟩, 0x40), (⟨1, 1, 2⟩, 0x62), (⟨2, 1, 1⟩, 0xA1),
        (⟨2, 0, 31⟩, 0x9F), (⟨3, 1, 31⟩, 0xFF)] : List (TagFields × Byte)).all (fun p =>
      after .tagPack { Regs.reset with tagfIn := p.1 } ==
        some { Regs.reset with tagfIn := p.1, tagOut := p.2, err := 0, lastop := 1 }) = true := by decide

/-- spec/95_test_vectors.md 2.2. -/
theorem test_tagUnpack_vectors :
    ([(0x00, 0x00000000), (0x04, 0x00040000), (0x1F, 0x001F0000), (0x20, 0x00000100), (0x30, 0x00100100),
        (0x62, 0x00020101), (0x9F, 0x001F0002), (0xA1, 0x00010102), (0xFF, 0x001F0103)] : List (Byte × Word)).all (fun p =>
      (after .tagUnpack { Regs.reset with tagIn := p.1 }).map (fun r => (r.read .tagfOut, r.read .status)) ==
        some (p.2, 0x00000200)) = true := by decide

/-- spec/95_test_vectors.md 2.3: LEN_IN, HDR_OUT0, HDR_OUT1, HDR_LEN. -/
theorem test_lenEncode_vectors :
    ([(0, 0x00000000, 0, 1), (5, 0x00000005, 0, 1), (127, 0x0000007F, 0, 1), (128, 0x00008081, 0, 2),
        (255, 0x0000FF81, 0, 2), (256, 0x00000182, 0, 3), (300, 0x002C0182, 0, 3), (65535, 0x00FFFF82, 0, 3),
        (65536, 0x00000183, 0, 4), (16777215, 0xFFFFFF83, 0, 4), (16777216, 0x00000184, 0, 5),
        (2147483647, 0xFFFF7F84, 0x000000FF, 5), (4294967295, 0xFFFFFF84, 0x000000FF, 5)] :
        List (Word × Word × Word × Word)).all (fun p =>
      (after .lenEncode { Regs.reset with lenIn := p.1, hdrOut0 := 0xDEADBEEF, hdrOut1 := 0xAA }).map
          (fun r => (r.read .hdrOut0, r.read .hdrOut1, r.read .hdrLen)) == some p.2) = true := by decide

/-- spec/95_test_vectors.md 2.3, the last column. -/
theorem test_lenSize_vectors :
    ([(0, 1), (127, 1), (128, 2), (255, 2), (256, 3), (65535, 3), (65536, 4), (16777215, 4), (16777216, 5),
        (4294967295, 5)] : List (Word × Word)).all (fun p =>
      (after .lenSize { Regs.reset with lenIn := p.1 }).map (fun r => (r.read .sizeOut, r.read .hdrLen, r.read .status)) ==
        some (p.2, 0, 0x00000400)) = true := by decide

/-- spec/95_test_vectors.md 2.4, D1 to D21: BUF_LEN, WIN0, WIN1, DLEN_OUT, DCONS_OUT, STATUS. -/
theorem test_lenDecode_vectors :
    ([(0, 0x00000504, 0, 0, 0, 0x501), (1, 0x00000504, 0, 0, 0, 0x501), (2, 0x00000004, 0, 0, 1, 0x500),
        (2, 0x00007F04, 0, 0x7F, 1, 0x500), (7, 0x00000504, 0, 5, 1, 0x500), (2, 0x00008004, 0, 0, 0, 0x503),
        (3, 0x00808104, 0, 0x80, 2, 0x500), (4, 0x2C018204, 0, 0x12C, 3, 0x500), (3, 0x00018204, 0, 0, 0, 0x501),
        (5, 0x02018404, 3, 0, 0, 0x501), (6, 0x00008504, 0, 0, 0, 0x501), (7, 0x00008504, 0, 0, 0, 0x504),
        (2, 0x0000FF04, 0, 0, 0, 0x501), (129, 0x0000FF04, 0, 0, 0, 0x504), (3, 0x00058104, 0, 5, 2, 0x500),
        (4, 0x80008204, 0, 0x80, 3, 0x500), (6, 0x00008404, 0, 0, 5, 0x500),
        (6, 0xFFFF8404, 0xFFFF, 0xFFFFFFFF, 5, 0x500), (6, 0x34128404, 0x7856, 0x12345678, 5, 0x500),
        (304, 0x2C0182A1, 0, 0x12C, 3, 0x500), (0xFFFFFFFF, 0x00018300, 0, 0x10000, 4, 0x500)] :
        List (Word × Word × BitVec 16 × Word × Word × Word)).all (fun p =>
      (after .lenDecode { Regs.reset with bufLen := p.1, win0 := p.2.1, win1 := p.2.2.1, dlenOut := 77, dconsOut := 7 }).map
          (fun r => (r.read .dlenOut, r.read .dconsOut, r.read .status)) == some p.2.2.2) = true := by decide

/-- spec/95_test_vectors.md 2.5. -/
theorem test_illegal_vectors :
    ([(.illegal0, 0x005), (.illegal6, 0x605), (.illegal7, 0x705), (.illegal8, 0x805), (.illegal9, 0x905), (.illegalA, 0xA05),
        (.illegalB, 0xB05), (.illegalC, 0xC05), (.illegalD, 0xD05), (.illegalE, 0xE05), (.illegalF, 0xF05)] :
        List (Instr × Word)).all (fun p => (after p.1 Regs.reset).map (fun r => r.read .status) == some p.2) = true := by decide

/-! ## The bus -/

/-- `WR TAGF_IN, 0xFFFFFFFF` stores `0x001F0103` (spec/95_test_vectors.md 2.1). -/
theorem test_write_tagfIn_masks :
    (regsOf (step (at3With Regs.reset ⟨.w32, 0xC8, .write 0xFFFFFFFF⟩))).map (fun r => r.read .tagfIn) =
      some 0x001F0103 := by decide

/-- `WR WIN1, 0xDEADBEEF` stores `0x0000BEEF` (spec/95_test_vectors.md 2.5). -/
theorem test_write_win1_masks :
    (regsOf (step (at3With Regs.reset ⟨.w32, 0xF4, .write 0xDEADBEEF⟩))).map (fun r => r.read .win1) =
      some 0x0000BEEF := by decide

/-- `WR CMD, 0x13` runs LEN_ENCODE of `LEN_IN = 0` (spec/95_test_vectors.md, P5). -/
theorem test_write_cmd_runs :
    regsOf (step (at3With Regs.reset ⟨.w32, 0xC0, .write 0x13⟩)) =
      some { Regs.reset with hdrLen := 1, lastop := 3 } := by decide

theorem test_write_status_ignored :
    regsOf (step (at3With Regs.reset ⟨.w32, 0xC4, .write 0xFFFFFFFF⟩)) = some Regs.reset := by decide

theorem test_read_status :
    readsOf (step (at3With { Regs.reset with err := 4, lastop := 5 } ⟨.w32, 0xC4, .read⟩)) = some [0x504] := by decide

/-- `RD CMD` always gives 0 (spec/95_test_vectors.md 2.5). -/
theorem test_read_cmd :
    readsOf (step (at3With { Regs.reset with err := 4, lastop := 5 } ⟨.w32, 0xC0, .read⟩)) = some [0] := by decide

theorem test_byte_access_refused :
    refusalOf (step (at3With Regs.reset ⟨.w8, 0xC0, .read⟩)) = some (.narrowAccess .w8) := by decide

theorem test_misaligned_refused :
    refusalOf (step (at3With Regs.reset ⟨.w32, 0xC6, .write 1⟩)) = some (.misalignedAccess 0xC6) := by decide

theorem test_out_of_window_refused :
    refusalOf (step (at3With Regs.reset ⟨.w32, 0x100, .read⟩)) = some (.outOfWindow 0x100) := by decide

theorem test_below_window_refused :
    refusalOf (step (at3With Regs.reset ⟨.w32, 0xBC, .read⟩)) = some (.outOfWindow 0xBC) := by decide

theorem test_fetched_word_runs :
    regsOf (step (State.reset.withFetchWord 32 0x4)) = some { Regs.reset with sizeOut := 1, lastop := 4 } := by decide

theorem test_tagf_line : assemble (.tagf 2 1 1) = some [(0x08, .write 0x00010102)] := by decide

/-- spec/95_test_vectors.md, P2. -/
theorem test_win_line : assemble (.win [0xA1, 0x81, 0x80, 0x11, 0x22, 0x33]) =
    some [(0x30, .write 0x118081A1), (0x34, .write 0x00003322)] := by decide

/-- `RegRef` by name and by offset are the same line (R85). -/
theorem test_line_by_offset : assemble (.rd (.offset 0x28)) = assemble (.rd (.name .sizeOut)) := by decide

/-! ## Witnesses: data that meet the hypotheses of the statements -/

/-- A state some run reaches, with results of an encode and of a decode in it. -/
def busy : Regs :=
  { Regs.reset with
    lenIn := 300, hdrOut0 := 0x002C0182, hdrLen := 3, sizeOut := 3, bufLen := 304, win0 := 0x2C0182A1,
    dlenOut := 300, dconsOut := 3, lastop := 5 }

theorem witness_CommandsRightAfterReset :
    State.reset.regs = State.reset.regs ∧ Instr.hasNotation .lenDecode = true ∧
    (after .lenDecode busy).map (fun r => r.err) = some 0 := by decide

/-- A state that meets R45's invariants with a header in it, and the step of an encode from it. -/
theorem witness_StepKeepsInvariant :
    busy.Inv ∧ (regsOf (step (at3With busy ⟨.w32, 0xC0, .write 3⟩))).isSome = true := by decide

theorem witness_InvariantOfEveryReachableState :
    regsOf (runSteps 2 { State.powerOn ⟨3⟩ with inputs := [.access ⟨.w32, 0xC0, .write 3⟩, .reset] }) = some Regs.reset ∧
    (regsOf (runSteps 1 { State.powerOn ⟨3⟩ with inputs := [.access ⟨.w32, 0xC0, .write 3⟩, .reset] })).map
      (fun r => r.hdrLen) = some 1 := by decide

theorem witness_StepKeepsHeaderSound :
    busy.HeaderSound ∧ (regsOf (step (at3With busy ⟨.w32, 0xC0, .write 3⟩))).isSome = true :=
  ⟨.inr ⟨300, by decide, by decide⟩, by decide⟩

/-- The first and the last register of the window, an access just below it and one just above it. -/
theorem witness_StepOutcomes :
    let c := (at3 busy).cfg
    (0xC0 % 4 = 0 ∧ c.baseAddr ≤ 0xC0 ∧ 0xC0 < c.baseAddr + 0x40) ∧
    (0xFC % 4 = 0 ∧ c.baseAddr ≤ 0xFC ∧ 0xFC < c.baseAddr + 0x40) ∧
    ¬ (c.baseAddr ≤ 0xBC) ∧ ¬ (0x100 < c.baseAddr + 0x40) := by decide

/-- Three admitted events, a read among them. -/
theorem witness_AdmittedRunCompletes :
    ({ at3 busy with inputs := [.access ⟨.w32, 0xC0, .write 5⟩, .reset, .access ⟨.w32, 0xD8, .read⟩] } :
      State).inputsAdmitted = true := by decide

/-- Between a write of LEN_IN and its read: a command, a read of LEN_IN itself and a write of another register. -/
theorem witness_ReadReturnsLastWrite :
    Reg.lenIn.isOperand = true ∧
    ∀ e ∈ [Reg.cmd.access ⟨3⟩ (.write 3), Reg.lenIn.access ⟨3⟩ .read, Reg.win1.access ⟨3⟩ (.write 7)],
      ∃ (q : Reg) (op : BusOp), e = q.access ⟨3⟩ op ∧ (q = Reg.lenIn → op = .read) := by
  refine ⟨by decide, fun e he => ?_⟩
  simp only [List.mem_cons, List.not_mem_nil, or_false] at he
  rcases he with rfl | rfl | rfl
  · exact ⟨.cmd, .write 3, rfl, by decide⟩
  · exact ⟨.lenIn, .read, rfl, by decide⟩
  · exact ⟨.win1, .write 7, rfl, by decide⟩

theorem witness_PlacementDoesNotMatter :
    let s : State := { at3 busy with inputs := [.access ⟨.w32, 0xC0, .write 5⟩, .access ⟨.w32, 0xF8, .read⟩] }
    s.inputsAdmitted = true ∧ readsOf (runSteps 2 s) = some [300] ∧
    s.inputs.map (HostEvent.relocate s.cfg ⟨1⟩) = [.access ⟨.w32, 0x40, .write 5⟩, .access ⟨.w32, 0x78, .read⟩] := by
  decide

theorem witness_NothingHappensWithoutTheHost : (at3 busy).inputs = [] ∧ regsOf (step (at3 busy)) = some busy := by decide

theorem witness_StepRunsDecodedCommand :
    decode [0x13, 0x00, 0x00, 0x80] = .ok .lenEncode ∧ Instr.lenEncode.wellFormed = true := by decide

theorem witness_FetchedWordIsRun : decodeTableWord 32 0x00000002 = some .tagUnpack := by decide

/-- One word for each clause, with all ignored bits set. -/
theorem witness_OpcodeMap :
    (List.range 16).all (fun n => (BitVec.ofNat 32 (0xFFFFFFF0 + n)).toNat % 16 == n) = true := by decide

theorem witness_DecodeEncodeAgree :
    Instr.illegalF.wellFormed = true ∧ decode [0xFF, 0, 0, 0] = .ok .illegalF ∧ ([] : List Byte).length ≠ 4 ∧
    ([1, 2, 3, 4, 5] : List Byte).length ≠ 4 := by decide

/-- A successful decode, each error of a decode, and an illegal opcode. -/
theorem witness_EveryCommandReportsStatus :
    dec 304 [0xA1, 0x82, 0x01, 0x2C, 0, 0] = .ok (300, 3) ∧ dec 1 [0, 5, 0, 0, 0, 0] = .error .truncatedBuffer ∧
    dec 2 [0, 0x80, 0, 0, 0, 0] = .error .unsupportedEncoding ∧ dec 7 [0, 0x85, 0, 0, 0, 0] = .error .lengthOverflow ∧
    Instr.illegal6.hasNotation = false := by decide

theorem witness_CommandsWriteOnlyTheirResults :
    Reg.lenIn ∉ instrResultRegs .lenEncode ∧ Reg.tagOut ∉ instrResultRegs .illegal0 := by decide

/-- Two states that agree on WIN0, WIN1 and BUF_LEN and differ elsewhere. -/
theorem witness_CommandsReadOnlyTheirOperands :
    (∀ r ∈ instrOperandRegs .lenDecode, busy.read r = (busy.setLenIn 7).read r) ∧ busy ≠ busy.setLenIn 7 := by decide

/-- The boundary of each clause. -/
theorem witness_HeaderSizeTable :
    ((127 : Word).toNat ≤ 127 ∧ 128 ≤ (128 : Word).toNat) ∧ (0x80 ≤ (0xFF : Word).toNat ∧ (0xFF : Word).toNat ≤ 0xFF) ∧
    (0x100 ≤ (0x100 : Word).toNat ∧ (0xFFFF : Word).toNat ≤ 0xFFFF) ∧
    (0x10000 ≤ (0x10000 : Word).toNat ∧ (0xFFFFFF : Word).toNat ≤ 0xFFFFFF) ∧
    0x1000000 ≤ (0x1000000 : Word).toNat := by decide

theorem witness_EncodingIsMinimal :
    enc 127 = [0x7F] ∧ enc 128 = [0x81, 0x80] ∧ enc 0xFFFFFFFF = [0x84, 0xFF, 0xFF, 0xFF, 0xFF] := by decide

/-- Each clause at a boundary of its range: the smallest buffer it admits, or the largest it does not. -/
theorem witness_DecodeChecksInOrder :
    dec 1 [0, 5, 0, 0, 0, 0] = .error .truncatedBuffer ∧ dec 2 [0, 0x7F, 0, 0, 0, 0] = .ok (0x7F, 1) ∧
    dec 2 [0, 0x80, 0, 0, 0, 0] = .error .unsupportedEncoding ∧ dec 2 [0, 0x81, 0, 0, 0, 0] = .error .truncatedBuffer ∧
    dec 6 [0, 0x85, 0, 0, 0, 0] = .error .truncatedBuffer ∧ dec 7 [0, 0x85, 0, 0, 0, 0] = .error .lengthOverflow ∧
    dec 128 [0, 0xFF, 0, 0, 0, 0] = .error .truncatedBuffer ∧ dec 129 [0, 0xFF, 0, 0, 0, 0] = .error .lengthOverflow ∧
    dec 3 [0, 0x81, 5, 0, 0, 0] = .ok (5, 2) ∧ dec 4 [0, 0x82, 1, 2, 0, 0] = .ok (258, 3) ∧
    dec 5 [0, 0x83, 1, 2, 3, 0] = .ok (66051, 4) ∧ dec 6 [0, 0x84, 1, 2, 3, 4] = .ok (16909060, 5) := by decide

theorem witness_LenDecodeResult :
    dec busy.bufLen busy.window = .ok (300, 3) ∧
    dec (busy.setBufLen 3).bufLen (busy.setBufLen 3).window = .error .truncatedBuffer := by decide

/-- One state for each error, with stale results that the decode must clear. -/
theorem witness_TruncatedBufferCause :
    (after .lenDecode (busy.setBufLen 1)).map (fun r => (r.err, r.dlenOut, r.dconsOut)) = some (1, 0, 0) ∧
    (after .lenDecode (busy.setBufLen 3)).map (fun r => (r.err, r.dlenOut, r.dconsOut)) = some (1, 0, 0) := by decide

theorem witness_UnsupportedEncodingCause :
    (after .lenDecode (busy.setWin0 0x00008004)).map (fun r => (r.err, r.dlenOut, r.dconsOut)) = some (3, 0, 0) := by decide

theorem witness_LengthOverflowCause :
    (after .lenDecode (busy.setWin0 0x00008504)).map (fun r => (r.err, r.dlenOut, r.dconsOut)) = some (4, 0, 0) := by decide

theorem witness_DecodeFailureIsVisible :
    (after .lenDecode (busy.setWin0 0)).map (fun r => (r.err, r.dlenOut, r.dconsOut)) = some (0, 0, 1) := by decide

/-- The smallest buffer of the longest header. -/
theorem witness_DecodeOfEncode : 1 + hdrsize 0xFFFFFFFF ≤ (6 : Word).toNat := by decide

theorem witness_EncodeCopyDecodeRoundTrip : 1 + hdrsize (at3 busy).regs.lenIn ≤ (4 : Word).toNat := by decide

/-- The shortest header of 128, and a longer one. -/
theorem witness_EncodingIsShortest :
    dec 3 [0, 0x81, 0x80, 0, 0, 0] = .ok ((128 : Word).toNat, 2) ∧ 2 = (enc 128).length ∧
    dec 4 [0, 0x82, 0, 0x80, 0, 0] = .ok ((128 : Word).toNat, 3) := by decide

theorem witness_NonMinimalHeadersDecode :
    1 ≤ 4 ∧ 4 ≤ 4 ∧ (0 : Word).toNat < 256 ^ 4 ∧ 2 + 4 ≤ (6 : Word).toNat := by decide

/-- A short form in the smallest buffer, with a value that does not fit. -/
theorem witness_OnlyTheHeaderMustFit :
    dec 304 [0, 0x7F, 0, 0, 0, 0] = .ok (0x7F, 1) ∧ 1 + 1 ≤ (2 : Word).toNat := by decide

/-- Windows that agree on the three bytes of the buffer and differ behind it. -/
theorem witness_BytesPastTheBufferAreNotRead :
    ([0, 0x81, 5, 1, 2, 3] : List Byte).length = 6 ∧ ([0, 0x81, 5, 7, 8, 9] : List Byte).length = 6 ∧
    (∀ j, j < (3 : Word).toNat → ([0, 0x81, 5, 1, 2, 3] : List Byte).getD j 0 = ([0, 0x81, 5, 7, 8, 9] : List Byte).getD j 0) := by
  decide

theorem witness_UnlistedBitsReadZero : (0xFFFFFF12 : Word) &&& Reg.tagIn.fieldMask = 0x12 &&& Reg.tagIn.fieldMask := by decide

/-- One access for each reason, the last two at the edges of the window. -/
theorem witness_MeaninglessAccessesAreRefused :
    AccessWidth.w16 ≠ .w32 ∧ 0xC1 % 4 ≠ 0 ∧ 0xBC < (at3 busy).cfg.baseAddr ∧ (at3 busy).cfg.baseAddr + 0x40 ≤ 0x100 := by
  decide

/-- A write of an operand register, which is neither a reset nor a write to `CMD`. -/
theorem witness_OnlyCommandsChangeResults :
    regsOf (step (at3With busy ⟨.w32, 0xD8, .write 7⟩)) = some (busy.setLenIn 7) ∧
    HostEvent.access ⟨.w32, 0xD8, .write 7⟩ ≠ .reset ∧
    (∀ v : Word, HostEvent.access ⟨.w32, 0xD8, .write 7⟩ ≠ .access ⟨.w32, (at3 busy).cfg.baseAddr, .write v⟩) ∧
    Reg.status.isReadOnly = true := by
  refine ⟨by decide, by decide, fun v h => ?_, by decide⟩
  simp only [HostEvent.access.injEq, Access.mk.injEq] at h
  exact absurd h.2.1 (by decide)

/-- `TAGF` at the top of its ranges, and just above each of them. -/
theorem witness_NotationExpansions :
    assemble (.tagf 3 1 31) = some [(0x08, .write 0x001F0103)] ∧ assemble (.tagf 4 0 0) = none ∧
    assemble (.tagf 0 2 0) = none ∧ assemble (.tagf 0 0 32) = none ∧ ([] : List Byte).length ≤ 6 := by decide

theorem witness_WinLineLoadsTheWindow : ([0x04, 0x80] : List Byte).length ≤ 6 := by decide

theorem witness_TagfLineThenTagPack : 3 ≤ 3 ∧ 1 ≤ 1 ∧ 31 ≤ 31 := by decide

end Sys2Proof.Tests
end

section
/-! SUPPORT. Placement: a BERLEN moved to another window, with the events still to come moved along, takes the same
steps (R10). -/

namespace Sys2Proof.Machine

/-- The machine placed elsewhere, with every event still to come at the same offset there (R10). -/
def State.relocate (s : State) (d : Config) : State :=
  { s with cfg := d, inputs := s.inputs.map (HostEvent.relocate s.cfg d) }

@[simp] theorem State.relocate_cfg (s : State) (d : Config) : (s.relocate d).cfg = d := rfl
@[simp] theorem State.relocate_regs (s : State) (d : Config) : (s.relocate d).regs = s.regs := rfl
@[simp] theorem State.relocate_reads (s : State) (d : Config) : (s.relocate d).reads = s.reads := rfl
@[simp] theorem State.relocate_inputs (s : State) (d : Config) :
    (s.relocate d).inputs = s.inputs.map (HostEvent.relocate s.cfg d) := rfl

/-- The access to a register becomes the access to that register in the other window. -/
@[simp] theorem HostEvent.relocate_access (c d : Config) (r : Reg) (op : BusOp) :
    HostEvent.relocate c d (r.access c op) = r.access d op := by
  simp only [Reg.access, HostEvent.relocate, Reg.addr, Nat.add_sub_cancel_left, Nat.add_comm]

/-- The first event of the moved machine is the first event, moved. -/
theorem State.relocate_inputs_cons (s : State) (d : Config) (e : HostEvent) (rest : List HostEvent)
    (h : s.inputs = e :: rest) :
    (s.relocate d).inputs = HostEvent.relocate s.cfg d e :: rest.map (HostEvent.relocate s.cfg d) := by
  rw [State.relocate_inputs, h, List.map_cons]

/-- One step commutes with moving the machine. -/
theorem step_relocate (s t : State) (d : Config) (h : step s = .next t) :
    step (s.relocate d) = .next (t.relocate d) := by
  rcases step_cases s t h with ⟨hi, rfl⟩ | ⟨rest, hi, rfl⟩ | ⟨rest, r, hi, rfl⟩ | ⟨rest, r, v, hr, hi, rfl⟩ |
    ⟨rest, v, hi, rfl⟩
  case inl => exact step_idle _ (by rw [State.relocate_inputs, hi, List.map_nil])
  all_goals have hm := s.relocate_inputs_cons d _ rest hi
  case inr.inl => exact step_reset _ _ hm
  all_goals rw [HostEvent.relocate_access] at hm
  case inr.inr.inl => exact step_read _ r _ hm
  case inr.inr.inr.inl => exact step_store _ r v _ hr hm
  case inr.inr.inr.inr => exact step_command _ v _ hm

/-- A run commutes with moving the machine. -/
theorem runSteps_relocate (k : Nat) (s t : State) (d : Config) (h : runSteps k s = .next t) :
    runSteps k (s.relocate d) = .next (t.relocate d) := by
  induction k generalizing s with
  | zero => cases h; rfl
  | succ k ih =>
    obtain ⟨m, hm, hk⟩ := runSteps_succ_inv k s t h
    rw [runSteps_succ k _ _ (step_relocate s m d hm)]
    exact ih m hk

/-- Settles O10: the moved run ends in the moved state, whose registers and reads are the same. That the events have a
meaning is not needed, since a run that answers a next state has performed only such events. -/
theorem placementDoesNotMatter : Obligations.PlacementDoesNotMatter := by
  intro s t c k _ h
  exact ⟨t.relocate c, runSteps_relocate k s t c h, t.relocate_regs c, t.relocate_reads c⟩

end Sys2Proof.Machine
end

section
/-! SUPPORT. The primitives of R17 as the notation section states them. -/

namespace Sys2Proof.Machine

/-- `BE` as the sum of R17: the first byte has the highest weight. -/
theorem beValue_eq_sum (bs : List Byte) : beValue bs =
    ∑ j ∈ Finset.range bs.length, (bs.getD j 0).toNat * 256 ^ (bs.length - 1 - j) := by
  induction bs with
  | nil => rfl
  | cons b s ih =>
    rw [List.length_cons, Finset.sum_range_succ', Nat.add_comm, beValue, ih]
    simp only [List.getD_cons_zero, List.getD_cons_succ, Nat.add_sub_cancel, Nat.sub_zero, Nat.sub_sub,
      Nat.add_comm 1]

/-- `BE(BEbytes(v, k))` keeps the low `k` bytes of `v`. -/
theorem beValue_beBytes (v : Word) (k : Nat) : beValue (beBytes v k) = v.toNat % 256 ^ k := by
  induction k with
  | zero => simp only [beBytes, beValue, Nat.pow_zero, Nat.mod_one]
  | succ k ih =>
    have top : ((v >>> (8 * k)).setWidth 8).toNat = v.toNat / 256 ^ k % 256 := by
      rw [BitVec.toNat_setWidth, BitVec.toNat_ushiftRight, Nat.shiftRight_eq_div_pow, Nat.pow_mul]
    calc beValue (beBytes v (k + 1))
        = v.toNat / 256 ^ k % 256 * 256 ^ k + v.toNat % 256 ^ k := by
          rw [beBytes, beValue, beBytes_length, top, ih]
      _ = v.toNat % 256 ^ (k + 1) := by rw [Nat.pow_succ, Nat.mod_mul, Nat.mul_comm, Nat.add_comm]

/-- `bitlen v` is the least number of bits that hold `v`. -/
theorem bitlen_le_iff (v : Word) (k : Nat) : bitlen v ≤ k ↔ v.toNat < 2 ^ k := by
  constructor
  · intro h
    exact (toNat_lt_of_bitlen v).trans_le (Nat.pow_le_pow_right (by decide) h)
  · intro h
    by_contra hk
    obtain ⟨m, hm⟩ : ∃ m, bitlen v = m + 1 := ⟨bitlen v - 1, by omega⟩
    have hkm : 2 ^ k ≤ 2 ^ m := Nat.pow_le_pow_right (by decide) (by omega)
    exact absurd h (not_lt.2 (hkm.trans (le_toNat_of_bitlen v m hm)))

/-- Settles O28, one clause for each of the primitives of R17. -/
theorem bigEndianPrimitives : Obligations.BigEndianPrimitives :=
  ⟨beValue_eq_sum, fun v k => ⟨beBytes_length v k, beValue_beBytes v k⟩, bitlen_le_iff⟩

end Sys2Proof.Machine
end

section
/-! SUPPORT. The invariants of the registers: what a store and a command do to them, and so what every step keeps
(R45, R34). -/

namespace Sys2Proof.Machine

/-- Registers change by a reset, a store or a command only, so what a reset meets and a store and a command keep, every
step keeps. -/
theorem step_keeps_regs (P : Regs → Prop) (hreset : P Regs.reset) (hstore : ∀ r q v, P r → P (Regs.store r q v))
    (hcommand : ∀ i r, P r → P (regsAfter i r)) (s t : State) (hs : P s.regs) (h : step s = .next t) : P t.regs := by
  rcases step_cases s t h with ⟨_, rfl⟩ | ⟨_, _, rfl⟩ | ⟨_, _, _, rfl⟩ | ⟨_, r, v, _, _, rfl⟩ | ⟨_, v, _, rfl⟩
  · exact hs
  · exact hreset
  · exact hs
  · exact hstore s.regs r v hs
  · exact hcommand (decodeWord v) s.regs hs

/-! ### The six invariants of R45 -/

theorem Regs.inv_reset : Regs.reset.Inv := by decide

/-- The invariants speak of results and `STATUS` only, and a store writes operand registers only. -/
theorem Regs.Inv.store {r : Regs} (h : r.Inv) (q : Reg) (v : Word) : (r.store q v).Inv := by
  cases q <;> exact h

theorem ErrCode.bits_cases (e : ErrCode) (he : e ≠ .bufferTooSmall) :
    e.bits = 0 ∨ e.bits = 1 ∨ e.bits = 3 ∨ e.bits = 4 ∨ e.bits = 5 := by
  cases e
  case bufferTooSmall => exact absurd rfl he
  all_goals decide

/-- `BUFFER_TOO_SMALL` is the one code whose report breaks the invariants. -/
theorem Regs.Inv.report {r : Regs} (h : r.Inv) (e : ErrCode) (op : BitVec 4) (he : e ≠ .bufferTooSmall) :
    (r.report e op).Inv := by
  obtain ⟨hlen, hsize, hcons, _, hfail, hpad⟩ := h
  exact ⟨hlen, hsize, hcons, e.bits_cases he, hfail, hpad⟩

theorem Regs.Inv.setSizeOut {r : Regs} (h : r.Inv) (n : BitVec 3) (hn : n.toNat ≤ 5) : (r.setSizeOut n).Inv := by
  obtain ⟨hlen, _, hcons, herr, hfail, hpad⟩ := h
  exact ⟨hlen, hn, hcons, herr, hfail, hpad⟩

theorem Regs.Inv.setDecoded {r : Regs} (h : r.Inv) (len : Word) (cons : BitVec 3) (hn : cons.toNat ≤ 5)
    (h0 : cons = 0 → len = 0) : (r.setDecoded len cons).Inv := by
  obtain ⟨hlen, hsize, _, herr, _, hpad⟩ := h
  exact ⟨hlen, hsize, hn, herr, h0, hpad⟩

/-- Behind the header of `L` the padded header has zero bytes only. -/
theorem padHeader_drop (L : Word) :
    (padHeader (enc L)).drop (hdrsize L) = List.replicate (5 - (enc L).length) 0 :=
  List.drop_left' (enc_length_eq_hdrsize L)

theorem Regs.Inv.lenEncode {r : Regs} (h : r.Inv) : (regsAfter .lenEncode r).Inv := by
  obtain ⟨_, hsize, hcons, _, hfail, _⟩ := h
  refine ⟨?_, hsize, hcons, .inl rfl, hfail, fun _ => ?_⟩
  · rw [regsAfter_lenEncode_hdrLen]
    exact (hdrsize_bounds r.lenIn).2
  · rw [regsAfter_lenEncode_header, regsAfter_lenEncode_hdrLen, padHeader_drop]
    exact fun b hb => List.eq_of_mem_replicate hb

theorem Regs.Inv.lenSize {r : Regs} (h : r.Inv) : (regsAfter .lenSize r).Inv := by
  have hb := hdrsize_bounds r.lenIn
  refine (h.setSizeOut _ ?_).report .ok _ (by decide)
  rw [ofNat_toNat_of_le _ (by omega)]
  exact hb.2

/-- A decode either consumes at least one byte or clears both of its results. -/
theorem Regs.Inv.lenDecode {r : Regs} (h : r.Inv) : (regsAfter .lenDecode r).Inv := by
  simp only [regsAfter]
  split
  · next p hp =>
    obtain ⟨_, hpos, hle⟩ := dec_ok_bounds _ _ _ _ hp
    have hn := ofNat_toNat_of_le p.2 (by omega)
    refine (h.setDecoded _ _ (by omega) fun h0 => ?_).report .ok _ (by decide)
    rw [h0] at hn
    exact absurd hn (Nat.ne_of_lt hpos)
  · next e he =>
    refine (h.setDecoded 0 0 (by decide) fun _ => rfl).report e _ ?_
    rcases dec_error_codes _ _ _ he with rfl | rfl | rfl <;> decide

theorem Regs.Inv.command {r : Regs} (h : r.Inv) (i : Instr) : (regsAfter i r).Inv := by
  cases i
  case lenEncode => exact h.lenEncode
  case lenSize => exact h.lenSize
  case lenDecode => exact h.lenDecode
  case tagPack => exact Regs.Inv.report (r := r.setTagOut _) h .ok 0x1 (by decide)
  case tagUnpack => exact Regs.Inv.report (r := r.setTagfOut _) h .ok 0x2 (by decide)
  all_goals exact h.report .illegalCommand _ (by decide)

/-- Settles O3: a reset leaves 0 everywhere, and power-on has the same registers in every placement. -/
theorem invariantHoldsAtReset : Obligations.InvariantHoldsAtReset :=
  ⟨Regs.inv_reset, fun _ => Regs.inv_reset⟩

/-- Settles O4, from what a store and a command keep. -/
theorem stepKeepsInvariant : Obligations.StepKeepsInvariant :=
  step_keeps_regs Regs.Inv Regs.inv_reset (fun _ q v h => h.store q v) (fun i _ h => h.command i)

/-- The last invariant byte by byte: the header view is 0 from `HDR_LEN` on. -/
theorem Regs.Inv.header_getElem? {r : Regs} (h : r.Inv) (j : Nat) (hpos : 1 ≤ r.hdrLen.toNat)
    (hj : r.hdrLen.toNat ≤ j) (h4 : j ≤ 4) : r.header[j]? = some 0 := by
  obtain ⟨_, _, _, _, _, hpad⟩ := h
  have hlt : j < r.header.length := Nat.lt_succ_of_le h4
  have hget : r.header[j]? = some r.header[j] := List.getElem?_eq_getElem hlt
  have hmem : r.header[j] ∈ r.header.drop r.hdrLen.toNat :=
    List.mem_of_getElem? (i := j - r.hdrLen.toNat) (by rw [List.getElem?_drop, Nat.add_sub_cancel' hj, hget])
  rw [hget, hpad hpos _ hmem]

/-- Settles O5: the invariants hold at power-on (O3), every step keeps them (O4), so every run keeps them. -/
theorem invariantOfEveryReachableState : Obligations.InvariantOfEveryReachableState := by
  intro c es k t hrun
  have hinv : t.regs.Inv := runSteps_keeps (fun s => s.regs.Inv) stepKeepsInvariant k _ t Regs.inv_reset hrun
  obtain ⟨hlen, hsize, hcons, herr, hfail, _⟩ := id hinv
  have mem_upto_five : ∀ n ≤ 5, n ∈ [0, 1, 2, 3, 4, 5] := by decide
  refine ⟨mem_upto_five _ hlen, mem_upto_five _ hsize, mem_upto_five _ hcons, ?_, hfail, ?_⟩
  · rcases herr with h | h | h | h | h <;> simp [h]
  · intro n hn hpos j hj h4
    subst hn
    exact hinv.header_getElem? j hpos hj h4

/-! ### The header registers -/

theorem Regs.headerSound_reset : Regs.reset.HeaderSound := .inl ⟨rfl, rfl⟩

/-- The header registers are no operand registers, and a store writes only these. -/
theorem Regs.HeaderSound.store {r : Regs} (h : r.HeaderSound) (q : Reg) (v : Word) : (r.store q v).HeaderSound := by
  cases q <;> exact h

/-- LEN_ENCODE writes a padded header, and every other command leaves the header registers as they are. -/
theorem Regs.HeaderSound.command {r : Regs} (h : r.HeaderSound) (i : Instr) : (regsAfter i r).HeaderSound := by
  cases i
  case lenEncode => exact .inr ⟨r.lenIn, regsAfter_lenEncode_hdrLen r, regsAfter_lenEncode_header r⟩
  case lenDecode => simp only [regsAfter]; split <;> exact h
  all_goals exact h

/-- Settles O6, from what a store and a command do to the header registers. -/
theorem stepKeepsHeaderSound : Obligations.StepKeepsHeaderSound :=
  ⟨Regs.headerSound_reset,
    step_keeps_regs Regs.HeaderSound Regs.headerSound_reset (fun _ q v h => h.store q v) (fun i _ h => h.command i)⟩

end Sys2Proof.Machine
end

section
/-! SUPPORT. What the host's accesses do to the operand registers: nothing but a write of a register itself changes it
(R43, R52, R83). -/

namespace Sys2Proof.Machine

/-! ### The stored fields -/

/-- A field of `w` bits at bit `k` has no bit under a mask `n` that is clear on all `w` bits from `k` on. -/
theorem field_and_eq_zero {w : Nat} (x : BitVec w) (k : Nat) (n : Word)
    (h : ((BitVec.allOnes w).setWidth 32 <<< k) &&& n = 0) : (x.setWidth 32 <<< k) &&& n = 0 := by
  have hx : x.setWidth 32 = x.setWidth 32 &&& (BitVec.allOnes w).setWidth 32 := by
    rw [← BitVec.setWidth_and, BitVec.and_allOnes]
  rw [hx, BitVec.shiftLeft_and_distrib, BitVec.and_assoc, h]
  exact BitVec.and_zero

/-- The same for a field at bit 0. -/
theorem setWidth_and_eq_zero {w : Nat} (x : BitVec w) (n : Word) (h : (BitVec.allOnes w).setWidth 32 &&& n = 0) :
    x.setWidth 32 &&& n = 0 := by
  have := field_and_eq_zero x 0 n
  rw [BitVec.shiftLeft_zero, BitVec.shiftLeft_zero] at this
  exact this h

theorem TagFields.toWord_and_eq_zero (t : TagFields) : t.toWord &&& ~~~0x001F0103 = 0 := by
  rw [TagFields.toWord, BitVec.and_or_distrib_right, BitVec.and_or_distrib_right,
    setWidth_and_eq_zero t.cls _ (by decide), field_and_eq_zero t.form 8 _ (by decide),
    field_and_eq_zero t.code 16 _ (by decide)]
  rfl

theorem statusWord_and_eq_zero (err lastop : BitVec 4) : statusWord err lastop &&& ~~~0x00000F0F = 0 := by
  rw [statusWord, BitVec.and_or_distrib_right, setWidth_and_eq_zero err _ (by decide),
    field_and_eq_zero lastop 8 _ (by decide)]
  rfl

/-- No register has a bit outside its listed fields (R43). -/
theorem Regs.read_and_not_fieldMask (rs : Regs) (r : Reg) : rs.read r &&& ~~~ r.fieldMask = 0 := by
  cases r
  case cmd => exact BitVec.zero_and
  case status => exact statusWord_and_eq_zero _ _
  case tagfIn | tagfOut => exact TagFields.toWord_and_eq_zero _
  case lenIn | hdrOut0 | bufLen | win0 | dlenOut => exact BitVec.and_zero
  all_goals exact setWidth_and_eq_zero _ _ (by decide)

/-- A mask that is set on all bits of a field leaves the field as it is. -/
theorem extractLsb'_and_of_allOnes (v m : Word) (i n : Nat) (h : m.extractLsb' i n = BitVec.allOnes n) :
    (v &&& m).extractLsb' i n = v.extractLsb' i n := by
  rw [BitVec.extractLsb'_and, h, BitVec.and_allOnes]

theorem TagFields.ofWord_and_mask (v : Word) : TagFields.ofWord (v &&& 0x001F0103) = TagFields.ofWord v := by
  simp only [TagFields.ofWord, extractLsb'_and_of_allOnes v 0x001F0103 0 2 (by decide),
    extractLsb'_and_of_allOnes v 0x001F0103 8 1 (by decide), extractLsb'_and_of_allOnes v 0x001F0103 16 5 (by decide)]

/-- A store takes the bits of the listed fields only (R43, R52). -/
theorem Regs.store_and_fieldMask (rs : Regs) (r : Reg) (v : Word) : rs.store r (v &&& r.fieldMask) = rs.store r v := by
  cases r
  case tagfIn => exact congrArg rs.setTagfIn (TagFields.ofWord_and_mask v)
  case tagIn => exact congrArg rs.setTagIn (extractLsb'_and_of_allOnes v _ 0 8 (by decide))
  case win1 => exact congrArg rs.setWin1 (extractLsb'_and_of_allOnes v _ 0 16 (by decide))
  case lenIn => exact congrArg rs.setLenIn BitVec.and_allOnes
  case bufLen => exact congrArg rs.setBufLen BitVec.and_allOnes
  case win0 => exact congrArg rs.setWin0 BitVec.and_allOnes
  all_goals rfl

/-- Settles O49: both writes store what the masked write stores. -/
theorem unlistedBitsReadZero : Obligations.UnlistedBitsReadZero := by
  refine ⟨Regs.read_and_not_fieldMask, fun rs r v w h => ?_⟩
  rw [← Regs.store_and_fieldMask rs r v, h, Regs.store_and_fieldMask]

/-! ### What stands in an operand register -/

/-- An access to the window that is no write of the operand register `r` leaves what a read of `r` returns. -/
theorem step_access_keeps_operand (s : State) (r q : Reg) (op : BusOp) (rest : List HostEvent)
    (hr : r.isOperand = true) (hi : s.inputs = q.access s.cfg op :: rest) (hop : q = r → op = .read) :
    ∃ t, step s = .next t ∧ t.inputs = rest ∧ t.cfg = s.cfg ∧ t.regs.read r = s.regs.read r := by
  cases op with
  | read => exact ⟨_, step_read s q rest hi, rfl, rfl, rfl⟩
  | write v =>
    by_cases hc : q = .cmd
    · subst hc
      exact ⟨_, step_command s v rest hi, rfl, rfl, regsAfter_read_operand _ s.regs r hr⟩
    · have hne : r ≠ q := fun h => BusOp.noConfusion (hop h.symm)
      exact ⟨_, step_store s q v rest hc hi, rfl, rfl, Regs.read_store_other s.regs r q v hne⟩

/-- The same for a list of such accesses, with the rest of the run still to come. -/
theorem runSteps_accesses_keep_operand (r : Reg) (hr : r.isOperand = true) (mid rest : List HostEvent) (k : Nat)
    (s : State) (hi : s.inputs = mid ++ rest)
    (hmid : ∀ e ∈ mid, ∃ (q : Reg) (op : BusOp), e = q.access s.cfg op ∧ (q = r → op = .read)) :
    ∃ t, runSteps (mid.length + k) s = runSteps k t ∧ t.inputs = rest ∧ t.cfg = s.cfg ∧
      t.regs.read r = s.regs.read r := by
  induction mid generalizing s with
  | nil => exact ⟨s, by rw [List.length_nil, Nat.zero_add], hi, rfl, rfl⟩
  | cons e mid ih =>
    obtain ⟨⟨q, op, rfl, hop⟩, htail⟩ := List.forall_mem_cons.1 hmid
    obtain ⟨m, hm, hmi, hmc, hmr⟩ := step_access_keeps_operand s r q op (mid ++ rest) hr hi hop
    obtain ⟨t, ht, hti, htc, htr⟩ := ih m hmi (hmc ▸ htail)
    refine ⟨t, ?_, hti, htc.trans hmc, htr.trans hmr⟩
    rw [List.length_cons, Nat.add_right_comm, runSteps_succ _ s m hm, ht]

/-- A write of an operand register, accesses that do not write it, and a read of it: the read returns what the write
stored. -/
theorem runSteps_write_then_read (s : State) (r : Reg) (v : Word) (mid : List HostEvent) (hr : r.isOperand = true)
    (hi : s.inputs = r.access s.cfg (.write v) :: (mid ++ [r.access s.cfg .read]))
    (hmid : ∀ e ∈ mid, ∃ (q : Reg) (op : BusOp), e = q.access s.cfg op ∧ (q = r → op = .read)) :
    ∃ t, runSteps (mid.length + 2) s = .next t ∧ t.reads.head? = some (v &&& r.fieldMask) := by
  have hcmd : r ≠ .cmd := by rintro rfl; cases hr
  have hwrite := step_store s r v _ hcmd hi
  obtain ⟨t, hrun, hti, htc, htr⟩ := runSteps_accesses_keep_operand r hr mid [r.access s.cfg .read] 1
    ((s.setInputs _).setRegs (s.regs.store r v)) rfl hmid
  have hread := step_read t r [] (by rw [hti, htc]; rfl)
  refine ⟨_, (runSteps_succ _ s _ hwrite).trans (hrun.trans (runSteps_succ 0 t _ hread)), ?_⟩
  rw [State.pushRead_reads, List.head?_cons, htr, State.setRegs_regs, Regs.read_store_same _ _ _ hr]

/-- Settles O9: the write stores `v`, the accesses in between keep it, and the last access reads it. -/
theorem readReturnsLastWrite : Obligations.ReadReturnsLastWrite :=
  fun _ r v mid hr hmid => runSteps_write_then_read _ r v mid hr rfl hmid

end Sys2Proof.Machine
end

section
/-! SUPPORT. `STATUS` is written and never read by a command (R23). -/

namespace Sys2Proof.Machine

/-- The registers after a command are the same whatever `STATUS` held before. -/
theorem regsAfter_of_status (i : Instr) (r : Regs) (e l : BitVec 4) :
    regsAfter i { r with err := e, lastop := l } = regsAfter i r := by
  cases i <;> rfl

/-- Settles O19: `exec` sets the registers to `regsAfter`, which does not look at `STATUS`. -/
theorem noCommandReadsStatus : Obligations.NoCommandReadsStatus := by
  intro i s e l
  refine ⟨_, exec_eq i s, ?_⟩
  rw [exec_eq, regsAfter_of_status]
  rfl

end Sys2Proof.Machine
end

section
/-! SUPPORT. The window view: what a `WIN` line loads into it, and the length round trip through it (R41, R86, R127). -/

namespace Sys2Proof.Machine

/-! ### The WIN line -/

/-- The two stores of a `WIN` line put its six bytes into the window view. -/
theorem window_of_win_stores (r : Regs) (b0 b1 b2 b3 b4 b5 : Byte) :
    ((r.store .win0 (wordOfLanes b0 b1 b2 b3)).store .win1 (wordOfLanes b4 b5 0 0)).window =
      [b0, b1, b2, b3, b4, b5] := by
  obtain ⟨h0, h1, h2, h3⟩ := wordOfLanes_lane b0 b1 b2 b3
  obtain ⟨h4, h5, _, _⟩ := wordOfLanes_lane b4 b5 0 0
  have low : ∀ (w : Word) (i : Nat), i + 8 ≤ 16 → (w.extractLsb' 0 16).extractLsb' i 8 = w.extractLsb' i 8 :=
    fun _ _ hi => BitVec.extractLsb'_extractLsb'_of_le hi
  simpa [Regs.window, Regs.store, h0, h1, h2, h3, low] using And.intro h4 h5

/-- At most six bytes, read with 0 for the missing ones, are those bytes with zeros after them. -/
theorem six_getD_eq_append_zeros (bs : List Byte) (h : bs.length ≤ 6) :
    [bs.getD 0 0, bs.getD 1 0, bs.getD 2 0, bs.getD 3 0, bs.getD 4 0, bs.getD 5 0] =
      bs ++ List.replicate (6 - bs.length) 0 := by
  match bs, h with
  | [], _ | [_], _ | [_, _], _ | [_, _, _], _ | [_, _, _, _], _ | [_, _, _, _, _], _ | [_, _, _, _, _, _], _ => rfl

/-- A `WIN` line of at most six bytes assembles to a write of each window register (R86). -/
theorem assemble_win (bs : List Byte) (h : bs.length ≤ 6) : assemble (.win bs) =
    some [(Reg.win0.offset, .write (wordOfLanes (bs.getD 0 0) (bs.getD 1 0) (bs.getD 2 0) (bs.getD 3 0))),
      (Reg.win1.offset, .write (wordOfLanes (bs.getD 4 0) (bs.getD 5 0) 0 0))] :=
  if_pos (decide_eq_true h)

/-- Two steps over two writes of registers other than `CMD` perform the two stores. -/
theorem runSteps_two_stores (s : State) (q r : Reg) (v w : Word) (rest : List HostEvent) (hq : q ≠ .cmd) (hr : r ≠ .cmd)
    (hi : s.inputs = q.access s.cfg (.write v) :: r.access s.cfg (.write w) :: rest) :
    runSteps 2 s = .next ((s.setInputs rest).setRegs ((s.regs.store q v).store r w)) :=
  (runSteps_succ 1 s _ (step_store s q v _ hq hi)).trans
    (runSteps_succ 0 ((s.setInputs _).setRegs (s.regs.store q v)) _ (step_store _ r w rest hr rfl))

/-- Settles O53: the line's two writes store its bytes, padded with zeros, in the window registers. -/
theorem winLineLoadsTheWindow : Obligations.WinLineLoadsTheWindow := by
  intro s bs rest hlen
  refine ⟨_, _, assemble_win bs hlen, runSteps_two_stores _ .win0 .win1 _ _ rest (by decide) (by decide) rfl, rfl, ?_⟩
  rw [← six_getD_eq_append_zeros bs hlen]
  exact window_of_win_stores s.regs _ _ _ _ _ _

/-! ### Decoding an encoding -/

theorem dec_short_form (B : Word) (tag h : Byte) (W : List Byte) (hB : 2 ≤ B.toNat) (hh : h.toNat < 128) :
    dec B (tag :: h :: W) = .ok (h.toNat, 1) := by
  have hW : (tag :: h :: W).getD 1 0 = h := rfl
  rcases hW ▸ dec_cases B (tag :: h :: W) with h' | h' | h' | h' | h' | h'
  case inr.inl =>
    obtain ⟨hdec, _⟩ := h'
    exact hdec
  all_goals omega

theorem dec_long_form (B : Word) (tag h : Byte) (W : List Byte) (k : Nat) (hh : h.toNat = 128 + k) (h1 : 1 ≤ k)
    (h4 : k ≤ 4) (hB : 2 + k ≤ B.toNat) : dec B (tag :: h :: W) = .ok (beValue (W.take k), 1 + k) := by
  have hW : (tag :: h :: W).getD 1 0 = h := rfl
  rcases hW ▸ dec_cases B (tag :: h :: W) with h' | h' | h' | h' | h' | h'
  case inr.inr.inr.inr.inr =>
    obtain ⟨hdec, _⟩ := h'
    rwa [hh, Nat.add_sub_cancel_left] at hdec
  all_goals omega

/-- The first byte of a long form is 128 more than the number of value bytes (R122). -/
theorem long_form_toNat (k : Nat) (h4 : k ≤ 4) : (0x80 ||| BitVec.ofNat 8 k : Byte).toNat = 128 + k := by
  interval_cases k <;> rfl

/-- The decoder gives back any encoded length, whatever the tag before it and the bytes after it (R127). -/
theorem dec_enc (L B : Word) (tag : Byte) (padding : List Byte) (hB : 1 + hdrsize L ≤ B.toNat) :
    dec B (tag :: (enc L ++ padding)) = .ok (L.toNat, hdrsize L) := by
  by_cases hL : L.toNat ≤ 127
  · have hsize : hdrsize L = 1 := if_pos hL
    have hbyte : (L.extractLsb' 0 8).toNat = L.toNat := by
      rw [BitVec.extractLsb'_toNat, Nat.shiftRight_zero]
      omega
    rw [enc_short L hL, hsize, ← hbyte]
    exact dec_short_form B tag _ padding (by omega) (by omega)
  · have hsize : hdrsize L = 1 + octets L := if_neg hL
    have h1 : ¬ octets L ≤ 0 := by
      rw [octets_le_iff]
      omega
    have hvalue : beValue ((beBytes L (octets L) ++ padding).take (octets L)) = L.toNat := by
      rw [List.take_left' (beBytes_length L _), beValue_beBytes_of_lt L _ (toNat_lt_of_octets L)]
    rw [enc_long L (by omega), hsize, ← hvalue]
    exact dec_long_form B tag _ _ (octets L) (long_form_toNat _ (octets_le L)) (by omega) (octets_le L) (by omega)

/-- A successful decode leaves the length and the count of consumed bytes in its result registers (R126). -/
theorem regsAfter_lenDecode_ok (r : Regs) (len n : Nat) (h : dec r.bufLen r.window = .ok (len, n)) :
    regsAfter .lenDecode r = (r.setDecoded (BitVec.ofNat 32 len) (BitVec.ofNat 3 n)).report .ok 0x5 := by
  simp only [regsAfter, h, Instr.opcode]

/-- The registers after the host has copied the header bytes into the window behind a tag and set the buffer length. -/
def Regs.copyHeader (r : Regs) (tag : Byte) (B : Word) : Regs :=
  ((r.setBufLen B).setWin0 (r.hdrOut0.extractLsb' 0 24 ++ tag)).setWin1 (r.hdrOut1 ++ r.hdrOut0.extractLsb' 24 8)

/-- The host's copy puts the header bytes behind the tag, in the order of R41 and R42. -/
theorem Regs.copyHeader_window (r : Regs) (tag : Byte) (B : Word) : (r.copyHeader tag B).window = tag :: r.header := by
  have hword : ∀ i, i + 8 ≤ 24 →
      (r.hdrOut0.extractLsb' 0 24 ++ tag : Word).extractLsb' (8 + i) 8 = r.hdrOut0.extractLsb' i 8 := by
    intro i hi
    refine (BitVec.extractLsb'_append_eq_of_le (Nat.le_add_right 8 i)).trans ?_
    rw [Nat.add_sub_cancel_left, BitVec.extractLsb'_extractLsb'_of_le hi]
  have htag : (r.hdrOut0.extractLsb' 0 24 ++ tag : Word).extractLsb' 0 8 = tag := BitVec.extractLsb'_append_eq_right
  have hlow : (r.hdrOut1 ++ r.hdrOut0.extractLsb' 24 8 : BitVec 16).extractLsb' 0 8 = r.hdrOut0.extractLsb' 24 8 :=
    BitVec.extractLsb'_append_eq_right
  have hhigh : (r.hdrOut1 ++ r.hdrOut0.extractLsb' 24 8 : BitVec 16).extractLsb' 8 8 = r.hdrOut1 :=
    BitVec.extractLsb'_append_eq_left
  simp only [Regs.copyHeader, Regs.window, Regs.header, Regs.setWin1_win0, Regs.setWin1_win1, Regs.setWin0_win0, htag,
    hlow, hhigh, hword 0 (by decide), hword 8 (by decide), hword 16 (by decide)]

/-- Settles O41: the copied window is the tag, the encoding and its padding, and the decoder gives the length back. -/
theorem encodeCopyDecodeRoundTrip : Obligations.EncodeCopyDecodeRoundTrip := by
  intro s tag B hB
  let r := regsAfter .lenEncode s.regs
  have hdec : dec B (r.copyHeader tag B).window = .ok (s.regs.lenIn.toNat, hdrsize s.regs.lenIn) := by
    rw [Regs.copyHeader_window, regsAfter_lenEncode_header]
    exact dec_enc s.regs.lenIn B tag _ hB
  refine ⟨_, _, exec_eq .lenEncode s, exec_eq .lenDecode ((s.setRegs r).setRegs (r.copyHeader tag B)), ?_⟩
  rw [State.setRegs_regs, State.setRegs_regs, State.setRegs_regs, regsAfter_lenDecode_ok _ _ _ hdec]
  refine ⟨?_, ?_, rfl⟩
  · exact BitVec.ofNat_toNat _ _
  · exact congrArg (BitVec.ofNat 3) (enc_length_eq_hdrsize s.regs.lenIn).symm

end Sys2Proof.Machine
end

section
/-! SUPPORT. The events the host can issue, one at a time and in a run: an event with a meaning is performed, any other
is refused by name (R52, R54, R60, R178). -/

namespace Sys2Proof.Machine

/-! ### Runs of admitted events -/

/-- An event with a meaning is performed: it is taken off the queue, and a read, and nothing else, adds one value. -/
theorem step_wellFormed (s : State) (e : HostEvent) (rest : List HostEvent) (hi : s.inputs = e :: rest)
    (he : e.wellFormed s.cfg = true) :
    ∃ t, step s = .next t ∧ t.inputs = rest ∧ t.cfg = s.cfg ∧
      t.reads.length = s.reads.length + if e.isRead then 1 else 0 := by
  rcases (HostEvent.wellFormed_iff s.cfg e).1 he with rfl | ⟨r, op, rfl⟩
  · exact ⟨_, step_reset s rest hi, rfl, rfl, rfl⟩
  · cases op with
    | read => exact ⟨_, step_read s r rest hi, rfl, rfl, rfl⟩
    | write v =>
      by_cases hr : r = .cmd
      · subst hr
        exact ⟨_, step_command s v rest hi, rfl, rfl, rfl⟩
      · exact ⟨_, step_store s r v rest hr hi, rfl, rfl, rfl⟩

/-- A run over events that all have a meaning performs them all. -/
theorem runSteps_wellFormed (es : List HostEvent) (s : State) (hi : s.inputs = es)
    (hes : ∀ e ∈ es, e.wellFormed s.cfg = true) :
    ∃ t, runSteps es.length s = .next t ∧ t.inputs = [] ∧ t.cfg = s.cfg ∧
      t.reads.length = s.reads.length + es.countP HostEvent.isRead := by
  induction es generalizing s with
  | nil => exact ⟨s, runSteps_zero s, hi, rfl, rfl⟩
  | cons e rest ih =>
    obtain ⟨he, hrest⟩ := List.forall_mem_cons.1 hes
    obtain ⟨m, hstep, hmi, hmc, hmr⟩ := step_wellFormed s e rest hi he
    obtain ⟨t, hrun, hti, htc, htr⟩ := ih m hmi (hmc ▸ hrest)
    refine ⟨t, (runSteps_succ _ s m hstep).trans hrun, hti, htc.trans hmc, ?_⟩
    rw [htr, hmr, List.countP_cons]
    omega

/-- Settles O8, by induction on the events still to come. -/
theorem admittedRunCompletes : Obligations.AdmittedRunCompletes :=
  fun s hs => runSteps_wellFormed s.inputs s rfl (List.all_eq_true.1 hs)

/-! ### Events without a meaning -/

theorem step_refused (s : State) (a : Access) (rest : List HostEvent) (why : Refusal)
    (hi : s.inputs = .access a :: rest) (ha : checkAccess s.cfg a = .error why) : step s = .refused why := by
  rw [step_cons s _ rest hi]
  simp only [performEvent, performAccess, State.setInputs_cfg, ha]

/-- An access that is narrow, misaligned or out of the window is not well formed. -/
theorem Access.not_wellFormed (c : Config) (a : Access)
    (h : a.width ≠ .w32 ∨ a.addr % 4 ≠ 0 ∨ a.addr < c.baseAddr ∨ c.baseAddr + 0x40 ≤ a.addr) :
    ¬ a.wellFormed c = true := by
  simp only [Access.wellFormed, Bool.and_eq_true, beq_iff_eq, decide_eq_true_eq]
  rintro ⟨⟨⟨hwidth, halign⟩, hlow⟩, (hhigh : a.addr < c.baseAddr + 0x40)⟩
  rcases h with h | h | h | h
  · exact h hwidth
  · exact h halign
  · omega
  · omega

/-- Settles O50: only a well-formed access reaches a register, and the check names a reason that holds. -/
theorem meaninglessAccessesAreRefused : Obligations.MeaninglessAccessesAreRefused := by
  intro s a rest hbad
  cases hc : checkAccess s.cfg a with
  | ok r => exact absurd ((checkAccess_isOk_iff s.cfg a).1 ⟨r, hc⟩) (Access.not_wellFormed s.cfg a hbad)
  | error why => exact ⟨why, step_refused _ a rest why rfl hc, checkAccess_eq_error s.cfg a why hc⟩

/-! ### Writes to `CMD` -/

/-- A write to `CMD` runs the command it selects, on the state with that write no longer to come (R52, R55). -/
theorem step_command_eq_exec (s : State) (v : Word) (rest : List HostEvent)
    (hi : s.inputs = Reg.cmd.access s.cfg (.write v) :: rest) : step s = exec (decodeWord v) (s.setInputs rest) :=
  (step_cons s _ rest hi).trans (performAccess_register (s.setInputs rest) .cmd (.write v))

/-- Settles O12: four bytes decode to the command of the word they make up. -/
theorem stepRunsDecodedCommand : Obligations.StepRunsDecodedCommand := by
  intro s b0 b1 b2 b3 i rest hdec _
  have hi : decodeWord (wordOfLanes b0 b1 b2 b3) = i := Except.ok.inj hdec
  rw [← hi]
  exact step_command_eq_exec _ _ rest rfl

/-- The command read from a row of the opcode table is the one its word selects. -/
theorem decodeWord_tableWord (nbits w : Nat) (i : Instr) (h : decodeTableWord nbits w = some i) :
    decodeWord (tableWord nbits w) = i := by
  unfold decodeTableWord at h
  split at h
  · rw [decode_lanesOfWord] at h
    exact Option.some.inj h
  · cases h

/-- Settles O13: the placed event is a write of the row's word to `CMD`. -/
theorem fetchedWordIsRun : Obligations.FetchedWordIsRun := by
  intro s nbits w i h
  rw [← decodeWord_tableWord nbits w i h]
  exact step_command_eq_exec (s.withFetchWord nbits w) _ s.inputs rfl

/-! ### Writes to the other registers -/

/-- A write to an operand register stores the bits of its fields, and every other register reads as before (R52). -/
theorem step_write_operand (s : State) (r : Reg) (v : Word) (rest : List HostEvent) (hr : r.isOperand = true)
    (hi : s.inputs = r.access s.cfg (.write v) :: rest) :
    ∃ t, step s = .next t ∧ t.regs.read r = v &&& r.fieldMask ∧ (∀ q, q ≠ r → t.regs.read q = s.regs.read q) ∧
      t.cfg = s.cfg ∧ t.inputs = rest ∧ t.reads = s.reads := by
  have hcmd : r ≠ .cmd := by rintro rfl; cases hr
  exact ⟨_, step_store s r v rest hcmd hi, Regs.read_store_same s.regs r v hr,
    fun q hq => Regs.read_store_other s.regs q r v hq, rfl, rfl, rfl⟩

theorem Reg.isOperand_of_isReadOnly (r : Reg) (h : r.isReadOnly = true) : r.isOperand = false := by
  cases r <;> first | rfl | cases h

/-- A write to a read-only register changes nothing (R52). -/
theorem step_write_readOnly (s : State) (r : Reg) (v : Word) (rest : List HostEvent) (hr : r.isReadOnly = true)
    (hi : s.inputs = r.access s.cfg (.write v) :: rest) : step s = .next (s.setInputs rest) := by
  have hcmd : r ≠ .cmd := by rintro rfl; cases hr
  rw [step_store s r v rest hcmd hi, Regs.store_of_not_operand s.regs r v (r.isOperand_of_isReadOnly hr)]
  rfl

/-- Settles O47: one lemma for each kind of register, applied at each offset. -/
theorem busWriteMeaning : Obligations.BusWriteMeaning := by
  intro s v rest
  have operand := fun r hr =>
    step_write_operand { s with inputs := r.access s.cfg (.write v) :: rest } r v rest hr rfl
  have readOnly := fun r hr =>
    step_write_readOnly { s with inputs := r.access s.cfg (.write v) :: rest } r v rest hr rfl
  refine ⟨step_command_eq_exec _ v rest rfl, ?_, ?_⟩
  · simp only [List.forall_mem_cons, List.not_mem_nil, false_imp_iff, implies_true, and_true]
    exact ⟨operand .tagfIn rfl, operand .tagIn rfl, operand .lenIn rfl, operand .bufLen rfl, operand .win0 rfl,
      operand .win1 rfl⟩
  · simp only [List.forall_mem_cons, List.not_mem_nil, false_imp_iff, implies_true, and_true]
    exact ⟨readOnly .status rfl, readOnly .tagOut rfl, readOnly .tagfOut rfl, readOnly .hdrOut0 rfl,
      readOnly .hdrOut1 rfl, readOnly .hdrLen rfl, readOnly .sizeOut rfl, readOnly .dlenOut rfl, readOnly .dconsOut rfl⟩

/-- No store changes a read-only register, not even a store to it. -/
theorem Regs.read_store_readOnly (rs : Regs) (q r : Reg) (v : Word) (hq : q.isReadOnly = true) :
    (rs.store r v).read q = rs.read q := by
  by_cases h : q = r
  · rw [Regs.store_of_not_operand rs r v (h ▸ q.isOperand_of_isReadOnly hq)]
  · exact Regs.read_store_other rs q r v h

/-- Settles O51: apart from a reset and a command, a step is a read or a store. -/
theorem onlyCommandsChangeResults : Obligations.OnlyCommandsChangeResults := by
  intro s t e rest hstep hreset hcmd q hq
  rcases step_cases _ t hstep with ⟨hi, _⟩ | ⟨_, hi, _⟩ | ⟨_, _, _, rfl⟩ | ⟨_, r, v, _, _, rfl⟩ | ⟨_, v, hi, _⟩
  · cases hi
  · exact absurd (List.cons.inj hi).1 hreset
  · rfl
  · exact Regs.read_store_readOnly s.regs q r v hq
  · exact absurd (List.cons.inj hi).1 (hcmd v)

end Sys2Proof.Machine
end

section
/-! SUPPORT. The layouts as numbers, and with them what a read returns and what a `TAGF` line stores (R26, R53, R75, R76,
R86). -/

namespace Sys2Proof.Machine

/-! ### Fields side by side -/

/-- A field put above a value that ends below it counts with the weight of its lowest bit. -/
theorem or_field_toNat {n w : Nat} (a : BitVec n) (x : BitVec w) (k : Nat) (ha : a.toNat < 2 ^ k) (hk : w + k ≤ n) :
    (a ||| x.setWidth n <<< k).toNat = a.toNat + x.toNat * 2 ^ k := by
  have hx : x.toNat * 2 ^ k < 2 ^ n :=
    calc x.toNat * 2 ^ k < 2 ^ w * 2 ^ k := Nat.mul_lt_mul_of_pos_right x.isLt (Nat.two_pow_pos k)
      _ = 2 ^ (w + k) := (Nat.pow_add 2 w k).symm
      _ ≤ 2 ^ n := Nat.pow_le_pow_right (by decide) hk
  have hshift : (x.setWidth n <<< k).toNat = x.toNat <<< k := by
    rw [BitVec.toNat_shiftLeft, BitVec.toNat_setWidth_of_le (by omega), Nat.shiftLeft_eq, Nat.mod_eq_of_lt hx]
  rw [BitVec.toNat_or, hshift, Nat.or_comm, ← Nat.shiftLeft_add_eq_or_of_lt ha, Nat.shiftLeft_eq, Nat.add_comm]

theorem statusWord_toNat (err lastop : BitVec 4) : (statusWord err lastop).toNat = err.toNat + lastop.toNat * 256 := by
  have he : (err.setWidth 32).toNat = err.toNat := BitVec.toNat_setWidth_of_le (by decide)
  rw [statusWord, or_field_toNat _ _ 8 (by omega) (by decide), he]
  rfl

/-- The layout of R76 as a number. -/
theorem TagFields.toWord_toNat (t : TagFields) :
    t.toWord.toNat = t.cls.toNat + t.form.toNat * 256 + t.code.toNat * 65536 := by
  have hc : (t.cls.setWidth 32).toNat = t.cls.toNat := BitVec.toNat_setWidth_of_le (by decide)
  have hlow := or_field_toNat (t.cls.setWidth 32) t.form 8 (by omega) (by decide)
  rw [TagFields.toWord, or_field_toNat _ _ 16 (by omega) (by decide), hlow, hc]
  rfl

/-- The tag byte of R75 as a number. -/
theorem packTag_toNat (t : TagFields) : (packTag t).toNat = t.cls.toNat * 64 + t.form.toNat * 32 + t.code.toNat := by
  have hc : (t.code.setWidth 8).toNat = t.code.toNat := BitVec.toNat_setWidth_of_le (by decide)
  have hlow := or_field_toNat (t.code.setWidth 8) t.form 5 (by omega) (by decide)
  have hpack : packTag t = (t.code.setWidth 8 ||| t.form.setWidth 8 <<< 5) ||| t.cls.setWidth 8 <<< 6 := by
    rw [packTag, BitVec.or_comm, BitVec.or_comm (t.cls.setWidth 8 <<< 6), BitVec.or_assoc]
  rw [hpack, or_field_toNat _ _ 6 (by omega) (by decide), hlow, hc]
  omega

/-! ### Reads -/

/-- Settles O48: a read answers the register, whose layout is the number of its fields. -/
theorem busReadMeaning : Obligations.BusReadMeaning := by
  intro s rest
  have read : ∀ (r : Reg) (n : Nat), (s.regs.read r).toNat = n → ∃ v : Word,
      step { s with inputs := r.access s.cfg .read :: rest } =
        .next { s with inputs := rest, reads := v :: s.reads } ∧ v.toNat = n :=
    fun r n hn => ⟨s.regs.read r, step_read _ r rest rfl, hn⟩
  have narrow : ∀ {w : Nat} (x : BitVec w), w ≤ 32 → (x.setWidth 32).toNat = x.toNat :=
    fun _ => BitVec.toNat_setWidth_of_le
  simp only [List.forall_mem_cons, List.not_mem_nil, false_imp_iff, implies_true, and_true]
  exact ⟨read .cmd _ rfl, read .status _ (statusWord_toNat _ _), read .tagfIn _ (TagFields.toWord_toNat _),
    read .tagIn _ (narrow _ (by decide)), read .tagOut _ (narrow _ (by decide)),
    read .tagfOut _ (TagFields.toWord_toNat _), read .lenIn _ rfl, read .hdrOut0 _ rfl,
    read .hdrOut1 _ (narrow _ (by decide)), read .hdrLen _ (narrow _ (by decide)),
    read .sizeOut _ (narrow _ (by decide)), read .bufLen _ rfl, read .win0 _ rfl, read .win1 _ (narrow _ (by decide)),
    read .dlenOut _ rfl, read .dconsOut _ (narrow _ (by decide))⟩

/-! ### The TAGF line -/

/-- Taking the fields out of a word undoes the layout of R76. -/
theorem TagFields.ofWord_toWord (t : TagFields) : TagFields.ofWord t.toWord = t := by
  have h := t.toWord_toNat
  have hcls := t.cls.isLt
  have hform := t.form.isLt
  have hcode := t.code.isLt
  refine (TagFields.mk.injEq ..).mpr ⟨?_, ?_, ?_⟩ <;> apply BitVec.eq_of_toNat_eq <;>
    rw [BitVec.extractLsb'_toNat, Nat.shiftRight_eq_div_pow, h] <;> omega

/-- The fields a `TAGF` line names (R86). -/
def TagFields.ofNats (c f k : Nat) : TagFields := ⟨BitVec.ofNat 2 c, BitVec.ofNat 1 f, BitVec.ofNat 5 k⟩

/-- A `TAGF` line in range assembles to a write of its fields, in the layout of `TAGF_IN` (R76, R86). -/
theorem assemble_tagf (c f k : Nat) (hc : c ≤ 3) (hf : f ≤ 1) (hk : k ≤ 31) :
    assemble (.tagf c f k) = some [(Reg.tagfIn.offset, .write (TagFields.ofNats c f k).toWord)] := by
  have hwf : (HostLine.tagf c f k).wellFormed = true := by
    simp only [HostLine.wellFormed, Bool.and_eq_true, decide_eq_true_eq]
    omega
  have wide : ∀ (w n : Nat), w ≤ 32 → n < 2 ^ w → (BitVec.ofNat w n).setWidth 32 = BitVec.ofNat 32 n :=
    fun _ _ => BitVec.setWidth_ofNat_of_le_of_lt
  simp only [assemble, hwf, if_true, TagFields.ofNats, TagFields.toWord, wide 2 c (by decide) (by omega),
    wide 1 f (by decide) (by omega), wide 5 k (by decide) (by omega)]

/-- A write of fields to `TAGF_IN` and the command TAG_PACK leave the packed fields in `TAG_OUT`. -/
theorem runSteps_tagfIn_tagPack (s : State) (t : TagFields) (rest : List HostEvent)
    (hi : s.inputs = Reg.tagfIn.access s.cfg (.write t.toWord) :: commandWrite s.cfg (encode .tagPack) :: rest) :
    ∃ u, runSteps 2 s = .next u ∧ u.inputs = rest ∧ u.regs.tagOut = packTag t ∧ u.regs.err = 0 := by
  have hstore := step_store s .tagfIn t.toWord _ (by decide) hi
  have hpack := step_command
    ((s.setInputs (commandWrite s.cfg (encode .tagPack) :: rest)).setRegs (s.regs.store .tagfIn t.toWord))
    (encode .tagPack) rest rfl
  refine ⟨_, (runSteps_succ 1 s _ hstore).trans (runSteps_succ 0 _ _ hpack), rfl, ?_, rfl⟩
  exact congrArg packTag t.ofWord_toWord

/-- Settles O54: the line stores its operands, and TAG_PACK packs them. -/
theorem tagfLineThenTagPack : Obligations.TagfLineThenTagPack := by
  intro s c f k rest hc hf hk
  have hes : assembleAll s.cfg [.tagf c f k, .cmd .tagPack] =
      some [Reg.tagfIn.access s.cfg (.write (TagFields.ofNats c f k).toWord),
        commandWrite s.cfg (encode .tagPack)] := by
    simp only [assembleAll, assemble_tagf c f k hc hf hk]
    rfl
  obtain ⟨t, hrun, hrest, htag, herr⟩ := runSteps_tagfIn_tagPack
    (s.setInputs (Reg.tagfIn.access s.cfg (.write (TagFields.ofNats c f k).toWord) ::
      commandWrite s.cfg (encode .tagPack) :: rest)) (TagFields.ofNats c f k) rest rfl
  refine ⟨_, t, hes, hrun, hrest, ?_, herr⟩
  rw [htag, packTag_toNat]
  simp only [TagFields.ofNats, BitVec.toNat_ofNat]
  omega

end Sys2Proof.Machine
end

section
/-! SUPPORT. The decoder and the encoder: `OP`, the low four bits of a command word, is all that is read (R70 to R74). -/

namespace Sys2Proof.Machine

/-! ### The low four bits select the command -/

/-- A word selects the command whose opcode stands in its low four bits, and no other. -/
theorem decodeWord_eq_iff (v : Word) (i : Instr) : decodeWord v = i ↔ v.toNat % 16 = i.opcode.toNat := by
  rw [decodeWord, decodeOp_eq_iff, ← commandOp_toNat, BitVec.toNat_inj]

/-- Clearing the ignored bits leaves the command (R73). -/
theorem decodeWord_and_low (v : Word) : decodeWord (v &&& 0x0000000F) = decodeWord v :=
  congrArg decodeOp (extractLsb'_and_of_allOnes v 0x0000000F 0 4 (by decide))

/-- Every instruction is read back from its opcode, whatever stands in the ignored bits (R73). -/
theorem decodeWord_append_opcode (ignored : BitVec 28) (i : Instr) : decodeWord (ignored ++ i.opcode) = i :=
  (decodeOp_eq_iff _ i).2 (commandOp_append ignored i.opcode)

theorem decodeWord_encode (i : Instr) : decodeWord (encode i) = i :=
  (decodeOp_eq_iff _ i).2 (commandOp_encode i)

/-- Settles O14: each clause is the decoder's rule at one row of the opcode table. -/
theorem opcodeMap : Obligations.OpcodeMap := by
  intro v
  have row : ∀ i : Instr, v.toNat % 16 = i.opcode.toNat → decodeWord v = i := fun i => (decodeWord_eq_iff v i).2
  exact ⟨row .illegal0, row .tagPack, row .tagUnpack, row .lenEncode, row .lenSize, row .lenDecode, row .illegal6,
    row .illegal7, row .illegal8, row .illegal9, row .illegalA, row .illegalB, row .illegalC, row .illegalD,
    row .illegalE, row .illegalF⟩

/-- Settles O15: both writes run the command that `OP` selects. -/
theorem upperCommandBitsIgnored : Obligations.UpperCommandBitsIgnored := by
  intro s v rest
  have run : ∀ w : Word, step { s with inputs := Reg.cmd.access s.cfg (.write w) :: rest } =
      exec (decodeWord w) { s with inputs := rest } := fun w => step_command_eq_exec _ w rest rfl
  exact (run v).trans ((run _).trans (by rw [decodeWord_and_low])).symm

/-- Settles O17: the low four bits of each word are the opcode of its command. -/
theorem knownCommandWords : Obligations.KnownCommandWords := by
  have row : ∀ (v : Word) (i : Instr), v.toNat % 16 = i.opcode.toNat → decodeWord v = i :=
    fun v i => (decodeWord_eq_iff v i).2
  exact ⟨row _ .tagPack rfl, row _ .tagUnpack rfl, row _ .lenEncode rfl, row _ .lenSize rfl, row _ .lenDecode rfl,
    row _ .illegal0 rfl, row _ .illegal6 rfl, row _ .illegalF rfl⟩

/-! ### The byte form -/

/-- A byte string that is not one word is no command (R74). -/
theorem decode_of_length_ne_four (bs : List Byte) (h : bs.length ≠ 4) : decode bs = .error (.notOneWord bs.length) := by
  match bs, h with
  | [], _ | [_], _ | [_, _], _ | [_, _, _], _ | _ :: _ :: _ :: _ :: _ :: _, _ => rfl
  | [_, _, _, _], h => exact absurd rfl h

/-- The opcode of the command in four bytes stands in the low half of the first byte (R57, R70). -/
theorem opcode_of_decode (b0 b1 b2 b3 : Byte) (i : Instr) (h : decode [b0, b1, b2, b3] = .ok i) :
    b0.toNat % 16 = i.opcode.toNat := by
  have hop := (decodeWord_eq_iff (wordOfLanes b0 b1 b2 b3) i).1 (Except.ok.inj h)
  rw [wordOfLanes_toNat] at hop
  omega

/-- Settles O16: the bytes of a word decode as the word does, and a word decodes by its opcode alone. -/
theorem decodeEncodeAgree : Obligations.DecodeEncodeAgree := by
  refine ⟨fun i _ => ?_, fun i ignored _ => ?_, opcode_of_decode, decode_of_length_ne_four⟩
  · rw [encodeBytes, decode_lanesOfWord, decodeWord_encode]
  · exact (decode_lanesOfWord _).trans (congrArg Except.ok (decodeWord_append_opcode ignored i))

end Sys2Proof.Machine
end

section
/-! SUPPORT. What a command writes and what it reads: the two columns of R83's operand table. -/

namespace Sys2Proof.Machine

/-! ### Illegal opcodes -/

/-- An opcode that selects no command sets `STATUS` and changes nothing else (R72). -/
theorem exec_of_hasNotation_false (i : Instr) (s : State) (h : i.hasNotation = false) :
    exec i s = .next { s with regs := { s.regs with err := 0x5, lastop := i.opcode } } := by
  cases i
  case tagPack | tagUnpack | lenEncode | lenSize | lenDecode => cases h
  all_goals rfl

/-- Settles O23, one clause for each illegal opcode. -/
theorem illegalOpcodesOnlySetStatus : Obligations.IllegalOpcodesOnlySetStatus := by
  intro s
  have illegal := fun i => exec_of_hasNotation_false i s
  exact ⟨illegal .illegal0 rfl, illegal .illegal6 rfl, illegal .illegal7 rfl, illegal .illegal8 rfl,
    illegal .illegal9 rfl, illegal .illegalA rfl, illegal .illegalB rfl, illegal .illegalC rfl, illegal .illegalD rfl,
    illegal .illegalE rfl, illegal .illegalF rfl⟩

/-! ### What each result write leaves unchanged -/

section
variable (r : Regs) (q : Reg)

theorem Regs.read_report (e : ErrCode) (op : BitVec 4) (h : q ≠ .status) : (r.report e op).read q = r.read q := by
  cases q
  case status => exact absurd rfl h
  all_goals rfl

theorem Regs.read_setTagOut (t : Byte) (h : q ≠ .tagOut) : (r.setTagOut t).read q = r.read q := by
  cases q
  case tagOut => exact absurd rfl h
  all_goals rfl

theorem Regs.read_setTagfOut (t : TagFields) (h : q ≠ .tagfOut) : (r.setTagfOut t).read q = r.read q := by
  cases q
  case tagfOut => exact absurd rfl h
  all_goals rfl

theorem Regs.read_setHeader (h0 : Word) (h1 : Byte) (n : BitVec 3) (hq0 : q ≠ .hdrOut0) (hq1 : q ≠ .hdrOut1)
    (hn : q ≠ .hdrLen) : (r.setHeader h0 h1 n).read q = r.read q := by
  cases q
  case hdrOut0 => exact absurd rfl hq0
  case hdrOut1 => exact absurd rfl hq1
  case hdrLen => exact absurd rfl hn
  all_goals rfl

theorem Regs.read_setSizeOut (n : BitVec 3) (h : q ≠ .sizeOut) : (r.setSizeOut n).read q = r.read q := by
  cases q
  case sizeOut => exact absurd rfl h
  all_goals rfl

theorem Regs.read_setDecoded (len : Word) (cons : BitVec 3) (hlen : q ≠ .dlenOut) (hcons : q ≠ .dconsOut) :
    (r.setDecoded len cons).read q = r.read q := by
  cases q
  case dlenOut => exact absurd rfl hlen
  case dconsOut => exact absurd rfl hcons
  all_goals rfl

end

/-- A command leaves every register as it is that R83 does not list among its results. -/
theorem regsAfter_read_of_not_result (i : Instr) (r : Regs) (q : Reg) (h : q ∉ instrResultRegs i) :
    (regsAfter i r).read q = r.read q := by
  cases i <;> simp only [instrResultRegs, List.mem_cons, List.not_mem_nil, or_false, not_or] at h
  case tagPack =>
    obtain ⟨hout, hstatus⟩ := h
    exact (Regs.read_report _ q _ _ hstatus).trans (r.read_setTagOut q _ hout)
  case tagUnpack =>
    obtain ⟨hout, hstatus⟩ := h
    exact (Regs.read_report _ q _ _ hstatus).trans (r.read_setTagfOut q _ hout)
  case lenEncode =>
    obtain ⟨h0, h1, hn, hstatus⟩ := h
    exact (Regs.read_report _ q _ _ hstatus).trans (r.read_setHeader q _ _ _ h0 h1 hn)
  case lenSize =>
    obtain ⟨hout, hstatus⟩ := h
    exact (Regs.read_report _ q _ _ hstatus).trans (r.read_setSizeOut q _ hout)
  case lenDecode =>
    obtain ⟨hlen, hcons, hstatus⟩ := h
    simp only [regsAfter]
    split <;> exact (Regs.read_report _ q _ _ hstatus).trans (r.read_setDecoded q _ _ hlen hcons)
  all_goals exact r.read_report q _ _ h

/-- Settles O20: a command completes and changes registers only, and of these its results only. -/
theorem commandsWriteOnlyTheirResults : Obligations.CommandsWriteOnlyTheirResults :=
  fun i s => ⟨_, exec_eq i s, rfl, rfl, rfl, regsAfter_read_of_not_result i s.regs⟩

/-! ### What the results depend on -/

theorem TagFields.toWord_injective : Function.Injective TagFields.toWord :=
  Function.LeftInverse.injective TagFields.ofWord_toWord

theorem setWidth_injective_of_le {w n : Nat} (h : w ≤ n) : Function.Injective (BitVec.setWidth (w := w) n) := by
  intro x y hxy
  have hnat := congrArg BitVec.toNat hxy
  rw [BitVec.toNat_setWidth_of_le h, BitVec.toNat_setWidth_of_le h] at hnat
  exact BitVec.eq_of_toNat_eq hnat

/-- Registers that agree on the operands of a command agree on its results afterwards (R83). -/
theorem regsAfter_read_result_congr (i : Instr) (r u : Regs) (h : ∀ q ∈ instrOperandRegs i, r.read q = u.read q) :
    ∀ q ∈ instrResultRegs i, (regsAfter i r).read q = (regsAfter i u).read q := by
  cases i <;> simp only [instrOperandRegs, instrResultRegs, List.forall_mem_cons, List.not_mem_nil, false_imp_iff,
    implies_true, and_true] at h ⊢
  case tagPack =>
    have hin : r.tagfIn = u.tagfIn := TagFields.toWord_injective h
    exact ⟨congrArg (fun t => (packTag t).setWidth 32) hin, rfl⟩
  case tagUnpack =>
    have hin : r.tagIn = u.tagIn := setWidth_injective_of_le (by decide) h
    exact ⟨congrArg (fun t => (unpackTag t).toWord) hin, rfl⟩
  case lenEncode =>
    have hin : r.lenIn = u.lenIn := h
    simp only [regsAfter, hin]
    exact ⟨rfl, rfl, rfl, rfl⟩
  case lenSize =>
    have hin : r.lenIn = u.lenIn := h
    simp only [regsAfter, hin]
    exact ⟨rfl, rfl⟩
  case lenDecode =>
    obtain ⟨hlen, h0, h1⟩ := h
    have hbuf : r.bufLen = u.bufLen := hlen
    have hwin0 : r.win0 = u.win0 := h0
    have hwin1 : r.win1 = u.win1 := setWidth_injective_of_le (by decide) h1
    have hwindow : r.window = u.window := by rw [Regs.window, hwin0, hwin1, Regs.window]
    simp only [regsAfter, hbuf, hwindow]
    split <;> exact ⟨rfl, rfl, rfl⟩
  all_goals rfl

/-- Settles O21: both executions complete, with registers that agree on the results. -/
theorem commandsReadOnlyTheirOperands : Obligations.CommandsReadOnlyTheirOperands :=
  fun i s u h => ⟨_, _, exec_eq i s, exec_eq i u, regsAfter_read_result_congr i s.regs u.regs h⟩

end Sys2Proof.Machine
end

section
/-! SUPPORT. The lines of the host-access notation as the spec writes their expansions (R85, R86). -/

namespace Sys2Proof.Machine

/-- A `TAGF` line in range writes its operands with the weights of R76. -/
theorem assemble_tagf_ofNat (c f k : Nat) (hc : c ≤ 3) (hf : f ≤ 1) (hk : k ≤ 31) :
    assemble (.tagf c f k) = some [(0x08, .write (BitVec.ofNat 32 (c + f * 256 + k * 65536)))] := by
  have hword : (TagFields.ofNats c f k).toWord = BitVec.ofNat 32 (c + f * 256 + k * 65536) := by
    apply BitVec.eq_of_toNat_eq
    rw [TagFields.toWord_toNat]
    simp only [TagFields.ofNats, BitVec.toNat_ofNat]
    omega
  rw [assemble_tagf c f k hc hf hk, hword]
  rfl

/-- The assembler refuses a line that is not well formed (R86). -/
theorem assemble_eq_none (l : HostLine) (h : ¬ l.wellFormed = true) : assemble l = none :=
  if_neg h

theorem not_wellFormed_tagf (c f k : Nat) (h : 3 < c ∨ 1 < f ∨ 31 < k) :
    ¬ (HostLine.tagf c f k).wellFormed = true := by
  simp only [HostLine.wellFormed, Bool.and_eq_true, decide_eq_true_eq]
  omega

/-- The second word of a `WIN` line holds two bytes and zeros. -/
theorem wordOfLanes_two (b0 b1 : Byte) : wordOfLanes b0 b1 0 0 = BitVec.ofNat 32 (b0.toNat + b1.toNat * 256) := by
  apply BitVec.eq_of_toNat_eq
  rw [wordOfLanes_toNat, BitVec.toNat_ofNat]
  simp only [BitVec.ofNat_eq_ofNat, BitVec.toNat_ofNat]
  omega

theorem assemble_win_six (b0 b1 b2 b3 b4 b5 : Byte) : assemble (.win [b0, b1, b2, b3, b4, b5]) =
    some [(0x30, .write (b3 ++ b2 ++ b1 ++ b0)), (0x34, .write (BitVec.ofNat 32 (b4.toNat + b5.toNat * 256)))] := by
  rw [← wordOfLanes_two]
  exact assemble_win _ (Nat.le_refl 6)

/-- Missing trailing bytes of a `WIN` line are 0 (R86). -/
theorem assemble_win_append_zeros (bs : List Byte) (h : bs.length ≤ 6) :
    assemble (.win bs) = assemble (.win (bs ++ List.replicate (6 - bs.length) 0)) := by
  rw [← six_getD_eq_append_zeros bs h]
  exact assemble_win bs h

/-- Settles O52: `WR`, `RD` and `CMD` expand by definition, `TAGF` and `WIN` by the lemmas above. -/
theorem notationExpansions : Obligations.NotationExpansions :=
  ⟨fun _ _ => ⟨rfl, rfl⟩, fun _ _ => ⟨rfl, rfl⟩, ⟨rfl, rfl, rfl, rfl, rfl⟩, assemble_tagf_ofNat,
    fun c f k h => assemble_eq_none _ (not_wellFormed_tagf c f k h), assemble_win_six, assemble_win_append_zeros⟩

end Sys2Proof.Machine
end

section
/-! SUPPORT. The tag byte and its three sub-fields: packing and unpacking undo each other (R100 to R103). -/

namespace Sys2Proof.Machine

/-! ### The unpacked fields as numbers -/

section
variable (t : Byte)

theorem unpackTag_cls_toNat : (unpackTag t).cls.toNat = t.toNat / 64 := by
  have ht := t.isLt
  rw [unpackTag, BitVec.extractLsb'_toNat, Nat.shiftRight_eq_div_pow]
  omega

theorem unpackTag_form_toNat : (unpackTag t).form.toNat = t.toNat / 32 % 2 := by
  rw [unpackTag, BitVec.extractLsb'_toNat, Nat.shiftRight_eq_div_pow]

theorem unpackTag_code_toNat : (unpackTag t).code.toNat = t.toNat % 32 := by
  rw [unpackTag, BitVec.extractLsb'_toNat, Nat.shiftRight_zero]

end

/-! ### Packing and unpacking are inverse to each other -/

theorem TagFields.eq_of_toNat_eq {f g : TagFields} (hcls : f.cls.toNat = g.cls.toNat)
    (hform : f.form.toNat = g.form.toNat) (hcode : f.code.toNat = g.code.toNat) : f = g := by
  cases f
  cases g
  exact (TagFields.mk.injEq ..).mpr
    ⟨BitVec.eq_of_toNat_eq hcls, BitVec.eq_of_toNat_eq hform, BitVec.eq_of_toNat_eq hcode⟩

theorem unpackTag_packTag (f : TagFields) : unpackTag (packTag f) = f := by
  have hform := f.form.isLt
  have hcode := f.code.isLt
  apply TagFields.eq_of_toNat_eq
  case hcls => rw [unpackTag_cls_toNat, packTag_toNat]; omega
  case hform => rw [unpackTag_form_toNat, packTag_toNat]; omega
  case hcode => rw [unpackTag_code_toNat, packTag_toNat]; omega

theorem packTag_unpackTag (t : Byte) : packTag (unpackTag t) = t := by
  apply BitVec.eq_of_toNat_eq
  rw [packTag_toNat, unpackTag_cls_toNat, unpackTag_form_toNat, unpackTag_code_toNat]
  omega

theorem packTag_bijective : Function.Bijective packTag :=
  Function.bijective_iff_has_inverse.2 ⟨unpackTag, unpackTag_packTag, packTag_unpackTag⟩

/-! ### The two commands -/

/-- Settles O24: the value is R75's byte as a number, and the command writes only it and `STATUS`. -/
theorem tagPackResult : Obligations.TagPackResult :=
  ⟨rfl, fun s => ⟨_, exec_eq .tagPack s, packTag_toNat s.regs.tagfIn, rfl⟩⟩

/-- Settles O25: the fields are quotients and remainders of the byte, and they read in the layout of R76. -/
theorem tagUnpackResult : Obligations.TagUnpackResult :=
  ⟨rfl, fun s => ⟨_, exec_eq .tagUnpack s, unpackTag_cls_toNat s.regs.tagIn, unpackTag_form_toNat s.regs.tagIn,
    unpackTag_code_toNat s.regs.tagIn, (unpackTag s.regs.tagIn).toWord_toNat, rfl⟩⟩

/-- Settles O26: the copied byte is the packed one, and unpacking undoes packing. -/
theorem tagPackThenUnpack : Obligations.TagPackThenUnpack := by
  intro s
  have hfields := unpackTag_packTag s.regs.tagfIn
  exact ⟨_, _, exec_eq .tagPack s, exec_eq .tagUnpack _, hfields, congrArg TagFields.toWord hfields⟩

/-- Settles O27: the copied fields are the unpacked ones, and packing undoes unpacking. -/
theorem tagUnpackThenPack : Obligations.TagUnpackThenPack :=
  ⟨fun s => ⟨_, _, exec_eq .tagUnpack s, exec_eq .tagPack _, packTag_unpackTag s.regs.tagIn⟩, packTag_bijective⟩

end Sys2Proof.Machine
end

section
/-! SUPPORT. The encoder and the sizer: the header of a length, its size, and what LEN_ENCODE and LEN_SIZE leave (R121
to R124, R132). -/

namespace Sys2Proof.Machine

/-! ### The size of a header -/

theorem hdrsize_short (L : Word) (h : L.toNat ≤ 127) : hdrsize L = 1 := if_pos h

theorem hdrsize_long (L : Word) (h : 128 ≤ L.toNat) : hdrsize L = 1 + octets L := if_neg (by omega)

theorem octets_pos (L : Word) (h : 128 ≤ L.toNat) : 1 ≤ octets L := by
  have hnot : ¬ octets L ≤ 0 := by
    rw [octets_le_iff]
    omega
  omega

/-- A length that fills `k + 1` bytes has `k + 1` value bytes. -/
theorem octets_eq_succ (L : Word) (k : Nat) (hlo : 256 ^ k ≤ L.toNat) (hhi : L.toNat < 256 ^ (k + 1)) :
    octets L = k + 1 := by
  have hle : octets L ≤ k + 1 := (octets_le_iff L (k + 1)).2 hhi
  have hgt : ¬ octets L ≤ k := fun h => absurd ((octets_le_iff L k).1 h) (not_lt.2 hlo)
  omega

/-- Settles O29: below each power of 256 the number of value bytes is the exponent. -/
theorem headerSizeTable : Obligations.HeaderSizeTable := by
  intro L
  have row : ∀ k, 128 ≤ L.toNat → 256 ^ k ≤ L.toNat → L.toNat < 256 ^ (k + 1) → hdrsize L = 1 + (k + 1) :=
    fun k h hlo hhi => by rw [hdrsize_long L h, octets_eq_succ L k hlo hhi]
  exact ⟨hdrsize_short L, hdrsize_long L, fun _ _ => row 0 (by omega) (by omega) (by omega),
    fun _ _ => row 1 (by omega) (by omega) (by omega), fun _ _ => row 2 (by omega) (by omega) (by omega),
    fun _ => row 3 (by omega) (by omega) (by omega)⟩

/-! ### The shortest big-endian form -/

/-- A value too large for all bytes but the first has a first byte that counts. -/
theorem head_ne_zero_of_le_beValue (b : Byte) (s : List Byte) (h : 256 ^ s.length ≤ beValue (b :: s)) : b ≠ 0 := by
  rintro rfl
  have hzero : beValue (0 :: s) = beValue s := by simp [beValue]
  exact absurd (beValue_lt s) (not_lt.2 (h.trans_eq hzero))

/-- Settles O30: from 128 on the first value byte is the head of `beBytes`. -/
theorem encodingIsMinimal : Obligations.EncodingIsMinimal := by
  intro L
  refine ⟨enc_length_eq_hdrsize L, enc_short L, fun h => ?_⟩
  obtain ⟨k, hk⟩ : ∃ k, octets L = k + 1 := Nat.exists_eq_add_of_le' (octets_pos L h)
  have h4 := octets_le L
  have hhi := toNat_lt_of_octets L
  have henc := enc_long L h
  rw [hk] at h4 hhi henc
  have hlo := le_toNat_of_octets L k hk
  have hvalue := beValue_beBytes_of_lt L (k + 1) hhi
  refine ⟨k + 1, _, beBytes L k, by omega, h4, hk.symm, henc, beBytes_length L (k + 1), hvalue, ?_, hlo, hhi⟩
  apply head_ne_zero_of_le_beValue _ (beBytes L k)
  rw [beBytes_length]
  exact hlo.trans_eq hvalue.symm

/-! ### The two commands -/

theorem regsAfter_lenSize_sizeOut (r : Regs) : (regsAfter .lenSize r).sizeOut.toNat = hdrsize r.lenIn := by
  have := hdrsize_bounds r.lenIn
  exact ofNat_toNat_of_le _ (by omega)

/-- Settles O31: the header view is the padded header, and the command writes only it, `HDR_LEN` and `STATUS`. -/
theorem lenEncodeResult : Obligations.LenEncodeResult :=
  ⟨rfl, fun s => ⟨_, exec_eq .lenEncode s, regsAfter_lenEncode_header s.regs,
    (regsAfter_lenEncode_hdrLen s.regs).trans (enc_length_eq_hdrsize s.regs.lenIn).symm, rfl⟩⟩

/-- Settles O32: a header has 1 to 5 bytes, so its size fits `SIZE_OUT`. -/
theorem lenSizeResult : Obligations.LenSizeResult := by
  refine ⟨rfl, fun s => ⟨_, exec_eq .lenSize s, ?_⟩⟩
  have hsize := regsAfter_lenSize_sizeOut s.regs
  obtain ⟨h1, h5⟩ := hdrsize_bounds s.regs.lenIn
  exact ⟨hsize, hsize.symm ▸ h1, hsize.symm ▸ h5, rfl⟩

/-- Settles O33: both commands leave the header's size, which is 1 to 5. -/
theorem sizeAgreesWithEncode : Obligations.SizeAgreesWithEncode := by
  refine ⟨fun s => ⟨_, _, exec_eq .lenSize s, exec_eq .lenEncode s, ?_⟩, fun L => ?_, 0xFFFFFFFF, by decide⟩
  · have hsize := regsAfter_lenSize_sizeOut s.regs
    have hlen := regsAfter_lenEncode_hdrLen s.regs
    exact ⟨BitVec.eq_of_toNat_eq (hsize.trans hlen.symm), hsize, hlen.trans (enc_length_eq_hdrsize _).symm⟩
  · have := hdrsize_bounds L
    omega

end Sys2Proof.Machine
end

section
/-! SUPPORT. The decoder: when it answers what, which bytes it reads, and what LEN_DECODE leaves (R125 to R131,
R196). -/

namespace Sys2Proof.Machine

/-! ### The outcomes of `dec` -/

section
variable (B : Word) (W : List Byte)

/-- A decode succeeds on a short form and on a long form of one to four bytes, if the header fits in the buffer. -/
theorem dec_eq_ok_iff (len n : Nat) : dec B W = .ok (len, n) ↔
    (2 ≤ B.toNat ∧ (W.getD 1 0).toNat < 128 ∧ (W.getD 1 0).toNat = len ∧ 1 = n) ∨
    (128 < (W.getD 1 0).toNat ∧ (W.getD 1 0).toNat ≤ 132 ∧ (W.getD 1 0).toNat - 128 + 2 ≤ B.toNat ∧
      beValue ((W.drop 2).take ((W.getD 1 0).toNat - 128)) = len ∧ 1 + ((W.getD 1 0).toNat - 128) = n) := by
  rcases dec_cases B W with ⟨h, _⟩ | ⟨h, _⟩ | ⟨h, _⟩ | ⟨h, _⟩ | ⟨h, _⟩ | ⟨h, _⟩ <;>
    simp only [h, Except.ok.injEq, Prod.mk.injEq, reduceCtorEq, false_iff] <;> omega

/-- The causes of the three errors of `dec`, which do not overlap. -/
theorem dec_eq_error_iff :
    (dec B W = .error .truncatedBuffer ↔
      B.toNat < 2 ∨ (128 < (W.getD 1 0).toNat ∧ B.toNat < (W.getD 1 0).toNat - 128 + 2)) ∧
    (dec B W = .error .unsupportedEncoding ↔ 2 ≤ B.toNat ∧ (W.getD 1 0).toNat = 128) ∧
    (dec B W = .error .lengthOverflow ↔
      133 ≤ (W.getD 1 0).toNat ∧ (W.getD 1 0).toNat - 128 + 2 ≤ B.toNat) := by
  rcases dec_cases B W with ⟨h, _⟩ | ⟨h, _⟩ | ⟨h, _⟩ | ⟨h, _⟩ | ⟨h, _⟩ | ⟨h, _⟩ <;>
    simp only [h, Except.error.injEq, reduceCtorEq, false_iff, true_iff] <;> omega

end

/-- Settles O34: the errors by their causes, and the long forms as sums of their value bytes. -/
theorem decodeChecksInOrder : Obligations.DecodeChecksInOrder := by
  intro B w0 w1 w2 w3 w4 w5 W
  obtain ⟨truncated, indefinite, overflow⟩ := dec_eq_error_iff B W
  have long : ∀ k n, beValue ([w2, w3, w4, w5].take k) = n → 1 ≤ k → k ≤ 4 → w1.toNat = 128 + k →
      2 + k ≤ B.toNat → dec B W = .ok (n, 1 + k) := by
    rintro k _ rfl h1 h4 hw hB
    exact dec_long_form B w0 w1 [w2, w3, w4, w5] k hw h1 h4 hB
  refine ⟨fun h => truncated.2 (.inl h), dec_short_form B w0 w1 _, fun hB hw => indefinite.2 ⟨hB, hw⟩,
    fun _ hw hB => truncated.2 (.inr ⟨hw, hB⟩), fun hw hB => overflow.2 ⟨hw, hB⟩,
    long 1 _ ?_ (by decide) (by decide), long 2 _ ?_ (by decide) (by decide), long 3 _ ?_ (by decide) (by decide),
    long 4 _ ?_ (by decide) (by decide)⟩ <;>
    simp only [List.take, beValue, List.length] <;> omega

/-- Settles O44: of the buffer length a successful decode asks only that the header fits. -/
theorem onlyTheHeaderMustFit : Obligations.OnlyTheHeaderMustFit := by
  refine ⟨fun B W len n h => ?_, fun w0 w2 w3 w4 w5 => dec_short_form 2 w0 0x7F _ (by decide) (by decide)⟩
  rcases (dec_eq_ok_iff B W len n).1 h with ⟨hB, hw, hlen, rfl⟩ | ⟨hlo, hhi, hB, hlen, rfl⟩
  · exact ⟨hB, fun C hC => (dec_eq_ok_iff C W len 1).2 (.inl ⟨hC, hw, hlen, rfl⟩)⟩
  · exact ⟨by omega, fun C hC => (dec_eq_ok_iff C W len _).2 (.inr ⟨hlo, hhi, by omega, hlen, rfl⟩)⟩

/-! ### Headers and the lengths they decode to -/

/-- Settles O40: R127 is `dec_enc`, for the bytes after the tag put together one by one. -/
theorem decodeOfEncode : Obligations.DecodeOfEncode :=
  fun L B tag padding hB => dec_enc L B tag padding hB

/-- The decoder takes any `k` value bytes, leading zero bytes among them (R129). -/
theorem dec_beBytes (B v : Word) (tag : Byte) (k : Nat) (padding : List Byte) (h1 : 1 ≤ k) (h4 : k ≤ 4)
    (hv : v.toNat < 256 ^ k) (hB : 2 + k ≤ B.toNat) :
    dec B (tag :: (0x80 ||| BitVec.ofNat 8 k) :: (beBytes v k ++ padding)) = .ok (v.toNat, 1 + k) := by
  rw [dec_long_form B tag _ _ k (long_form_toNat k h4) h1 h4 hB, List.take_left' (beBytes_length v k),
    beValue_beBytes_of_lt v k hv]

/-- Settles O43: a long form of 0 is not the encoding of 0. -/
theorem nonMinimalHeadersDecode : Obligations.NonMinimalHeadersDecode :=
  ⟨dec_beBytes, 3, 0, [0, 0x81, 0], 2, by decide⟩

/-- A header that decodes to `L` has as many bytes as `enc L` or more. -/
theorem hdrsize_le_of_dec (B L : Word) (W : List Byte) (n : Nat) (h : dec B W = .ok (L.toNat, n)) : hdrsize L ≤ n := by
  rcases (dec_eq_ok_iff B W L.toNat n).1 h with ⟨_, hw, hlen, rfl⟩ | ⟨hlo, _, _, hlen, rfl⟩
  · exact (hdrsize_short L (by omega)).le
  · have hL : L.toNat < 256 ^ ((W.getD 1 0).toNat - 128) := by
      rw [← hlen]
      exact (beValue_lt _).trans_le (Nat.pow_le_pow_right (by decide) (List.length_take_le _ _))
    have hoct := (octets_le_iff L _).2 hL
    by_cases hs : L.toNat ≤ 127
    · rw [hdrsize_short L hs]
      omega
    · rw [hdrsize_long L (by omega)]
      omega

/-- A header that decodes to `L` and has as many bytes as `enc L` is `enc L`. -/
theorem header_eq_enc_of_dec (B L : Word) (tag w : Byte) (W : List Byte) (h4 : 4 ≤ W.length)
    (h : dec B (tag :: w :: W) = .ok (L.toNat, hdrsize L)) : (w :: W).take (hdrsize L) = enc L := by
  have hw : (tag :: w :: W).getD 1 0 = w := rfl
  rcases hw ▸ (dec_eq_ok_iff B (tag :: w :: W) L.toNat _).1 h with ⟨_, hlt, hlen, hn⟩ | ⟨hlo, hhi, _, hlen, hn⟩
  · have hbyte : L.extractLsb' 0 8 = w := (congrArg (BitVec.ofNat 8) hlen.symm).trans (BitVec.ofNat_toNat 8 w)
    rw [← hn, enc_short L (by omega), hbyte]
    rfl
  · have hL : 128 ≤ L.toNat := by
      by_contra hs
      rw [hdrsize_short L (by omega)] at hn
      omega
    have hsize := hdrsize_long L hL
    have hk : w.toNat - 128 = octets L := by omega
    have hfirst : w = 0x80 ||| BitVec.ofNat 8 (octets L) := by
      apply BitVec.eq_of_toNat_eq
      rw [long_form_toNat _ (octets_le L)]
      omega
    have hvalue : W.take (octets L) = beBytes L (octets L) := by
      apply beValue_injective
      · rw [List.length_take, beBytes_length]
        omega
      · rw [beValue_beBytes_of_lt L _ (toNat_lt_of_octets L), ← hk]
        exact hlen
    rw [hsize, enc_long L hL, Nat.add_comm, List.take_succ_cons, hvalue, ← hfirst]

/-- Settles O42, with the four value bytes that follow the header byte in the window. -/
theorem encodingIsShortest : Obligations.EncodingIsShortest := by
  intro B L w0 w1 w2 w3 w4 w5 n h
  rw [enc_length_eq_hdrsize]
  refine ⟨hdrsize_le_of_dec B L _ n h, ?_⟩
  rintro rfl
  exact header_eq_enc_of_dec B L w0 w1 [w2, w3, w4, w5] (le_refl 4) h

/-! ### The bytes `dec` reads -/

/-- `dec` reads the first header byte if it is in the buffer, and then only value bytes that are in the buffer. -/
theorem dec_congr (B : Word) (V W : List Byte) (hfirst : 2 ≤ B.toNat → V.getD 1 0 = W.getD 1 0)
    (hvalue : ∀ k, k + 2 ≤ B.toNat → (V.drop 2).take k = (W.drop 2).take k) : dec B V = dec B W := by
  by_cases hB : B.toNat < 2
  · exact (if_pos hB).trans (if_pos hB).symm
  · simp only [dec, if_neg hB, hfirst (by omega)]
    split_ifs with hshort hindef hfit hover
    case neg => rw [hvalue _ (by omega)]
    all_goals rfl

/-- `dec` does not look at `W[0]` (R131). -/
theorem dec_cons_tag (B : Word) (tag old : Byte) (W : List Byte) : dec B (tag :: W) = dec B (old :: W) := rfl

/-- Lists of one length that agree below `m` have the same first `m` entries. -/
theorem take_eq_of_getD_eq (V W : List Byte) (m : Nat) (hlen : V.length = W.length)
    (h : ∀ j, j < m → V.getD j 0 = W.getD j 0) : V.take m = W.take m := by
  refine List.ext_getElem (by rw [List.length_take, List.length_take, hlen]) fun j hj hj' => ?_
  rw [List.length_take] at hj hj'
  rw [List.getElem_take, List.getElem_take, ← List.getD_eq_getElem V 0, ← List.getD_eq_getElem W 0]
  exact h j (by omega)

/-- Settles O46: the first header byte is byte 1, and `k` value bytes end at byte `k + 1`. -/
theorem bytesPastTheBufferAreNotRead : Obligations.BytesPastTheBufferAreNotRead := by
  intro B V W hV hW h
  refine dec_congr B V W (h 1) fun k hk => ?_
  rw [List.take_drop, List.take_drop, take_eq_of_getD_eq V W _ (hV.trans hW.symm) fun j hj => h j (by omega)]

/-! ### The command -/

theorem exec_lenDecode_of_ok (s : State) (len n : Nat) (h : dec s.regs.bufLen s.regs.window = .ok (len, n)) :
    exec .lenDecode s =
      .next (s.setRegs ((s.regs.setDecoded (BitVec.ofNat 32 len) (BitVec.ofNat 3 n)).report .ok 0x5)) := by
  rw [exec_eq, regsAfter_lenDecode_ok s.regs len n h]

theorem exec_lenDecode_of_error (s : State) (e : ErrCode) (h : dec s.regs.bufLen s.regs.window = .error e) :
    exec .lenDecode s = .next (s.setRegs ((s.regs.setDecoded 0 0).report e 0x5)) := by
  simp only [exec_eq, regsAfter, h, Instr.opcode]

/-- Settles O35: a decoded length and its count fit their registers. -/
theorem lenDecodeResult : Obligations.LenDecodeResult := by
  refine ⟨rfl, fun s => ?_⟩
  cases hdec : dec s.regs.bufLen s.regs.window with
  | ok p =>
    obtain ⟨len, n⟩ := p
    obtain ⟨hlen, _, hn⟩ := dec_ok_bounds _ _ len n hdec
    refine ⟨_, exec_lenDecode_of_ok s len n hdec, ?_, fun _ he => (nomatch he), rfl⟩
    rintro _ _ ⟨⟩
    exact ⟨Nat.mod_eq_of_lt hlen, ofNat_toNat_of_le n (by omega), rfl⟩
  | error e =>
    refine ⟨_, exec_lenDecode_of_error s e hdec, fun _ _ hok => (nomatch hok), ?_, rfl⟩
    rintro _ ⟨⟩
    exact ⟨rfl, rfl, rfl⟩

/-- Settles O39: success consumes a byte and failure clears both results (O35); a decoded 0 leaves the same `DLEN_OUT`
as the empty buffer after reset. -/
theorem decodeFailureIsVisible : Obligations.DecodeFailureIsVisible := by
  obtain ⟨_, hresult⟩ := lenDecodeResult
  refine ⟨fun s => ?_, State.reset.setRegs (Regs.reset.setBufLen 2), State.reset, _, _, exec_eq _ _, exec_eq _ _,
    by decide⟩
  obtain ⟨t, hexec, hok, herror, _⟩ := hresult s
  refine ⟨t, hexec, ?_⟩
  cases hdec : dec s.regs.bufLen s.regs.window with
  | ok p =>
    obtain ⟨len, n⟩ := p
    obtain ⟨_, hpos, _⟩ := dec_ok_bounds _ _ len n hdec
    obtain ⟨_, hcons, herr⟩ := hok len n hdec
    have hne : t.regs.dconsOut ≠ 0 := fun h0 => by
      rw [h0] at hcons
      exact absurd hcons (Nat.ne_of_lt hpos)
    exact ⟨iff_of_true herr (hcons.symm ▸ hpos), iff_of_false (fun h => h herr) (fun ⟨_, h0⟩ => hne h0)⟩
  | error e =>
    obtain ⟨hlen, hcons, herr⟩ := herror e hdec
    have hne : t.regs.err ≠ 0 := by
      rw [herr]
      rcases dec_error_codes _ _ e hdec with rfl | rfl | rfl <;> decide
    exact ⟨iff_of_false hne (by rw [hcons]; decide), iff_of_true hne ⟨hlen, hcons⟩⟩

/-- Two decodes of the same outcome leave the same results and the same `ERR`. -/
theorem regsAfter_lenDecode_congr (r q : Regs) (h : dec q.bufLen q.window = dec r.bufLen r.window) :
    (regsAfter .lenDecode q).dlenOut = (regsAfter .lenDecode r).dlenOut ∧
    (regsAfter .lenDecode q).dconsOut = (regsAfter .lenDecode r).dconsOut ∧
    (regsAfter .lenDecode q).err = (regsAfter .lenDecode r).err := by
  simp only [regsAfter, h]
  split <;> exact ⟨rfl, rfl, rfl⟩

/-- A field of a field is a field of the whole. -/
theorem extractLsb'_of_extractLsb' {w : Nat} (x : BitVec w) (start len i n : Nat) (h : i + n ≤ len) :
    (x.extractLsb' start len).extractLsb' i n = x.extractLsb' (start + i) n := by
  apply BitVec.eq_of_getLsbD_eq
  intro j hj
  have hlt : i + j < len := by omega
  simp only [BitVec.getLsbD_extractLsb', hlt, decide_true, Bool.true_and, Nat.add_assoc]

/-- A new low byte of `WIN0` is a new `W[0]`, and the other window bytes stay (R41). -/
theorem window_set_tag (r : Regs) (tag : Byte) :
    (r.setWin0 (r.win0.extractLsb' 8 24 ++ tag)).window = tag :: r.window.tail := by
  have htag : (r.win0.extractLsb' 8 24 ++ tag : Word).extractLsb' 0 8 = tag := BitVec.extractLsb'_append_eq_right
  have hbyte : ∀ i, i + 8 ≤ 24 →
      (r.win0.extractLsb' 8 24 ++ tag : Word).extractLsb' (8 + i) 8 = r.win0.extractLsb' (8 + i) 8 := by
    intro i hi
    refine (BitVec.extractLsb'_append_eq_of_le (Nat.le_add_right 8 i)).trans ?_
    rw [Nat.add_sub_cancel_left, extractLsb'_of_extractLsb' _ 8 24 i 8 hi]
  simp only [Regs.window, Regs.setWin0_win0, Regs.setWin0_win1, htag, hbyte 0 (by decide), hbyte 8 (by decide),
    hbyte 16 (by decide), List.tail_cons]

/-- Settles O45: only `W[0]` changes, and `dec` does not look at it. -/
theorem tagByteHasNoEffectOnDecode : Obligations.TagByteHasNoEffectOnDecode := by
  intro s tag
  refine ⟨_, _, exec_eq .lenDecode s, exec_eq .lenDecode (s.setRegs (s.regs.setWin0 _)), ?_⟩
  apply regsAfter_lenDecode_congr
  rw [State.setRegs_regs, window_set_tag]
  exact dec_cons_tag s.regs.bufLen tag _ s.regs.window.tail

end Sys2Proof.Machine
end

section
/-! SUPPORT. What a step can answer, and which command reports which code (R160 to R166, R175 to R178). -/

namespace Sys2Proof.Machine

/-! ### The outcomes of a step -/

/-- The well-formed accesses by width, alignment and address, as R54 and R178 write them. -/
theorem Access.wellFormed_iff_inWindow (c : Config) (a : Access) : a.wellFormed c = true ↔
    a.width = .w32 ∧ a.addr % 4 = 0 ∧ c.baseAddr ≤ a.addr ∧ a.addr < c.baseAddr + 0x40 := by
  simp only [Access.wellFormed, Bool.and_eq_true, beq_iff_eq, decide_eq_true_eq, and_assoc]
  rfl

/-- Settles O7: a well-formed access is performed, any other fails the access check, and no fault exists. -/
theorem stepOutcomes : Obligations.StepOutcomes := by
  refine ⟨fun s a rest hwidth halign hlow hhigh => ?_, fun s a rest hbad => ?_, fun _ f => nomatch f⟩
  · have hwf := (Access.wellFormed_iff_inWindow s.cfg a).2 ⟨hwidth, halign, hlow, hhigh⟩
    obtain ⟨t, hstep, _⟩ := step_wellFormed { s with inputs := .access a :: rest } _ rest rfl hwf
    exact ⟨t, hstep⟩
  · rw [← Access.wellFormed_iff_inWindow, ← checkAccess_isOk_iff] at hbad
    cases hcheck : checkAccess s.cfg a with
    | ok r => exact absurd ⟨r, hcheck⟩ hbad
    | error why => exact ⟨why, step_refused _ a rest why rfl hcheck⟩

/-- Settles O11, which is the idle case of a step. -/
theorem nothingHappensWithoutTheHost : Obligations.NothingHappensWithoutTheHost := step_idle

/-! ### The code in `STATUS.ERR` -/

/-- The four commands that cannot fail report `OK`. -/
theorem regsAfter_err_of_infallible (i : Instr) (r : Regs)
    (h : i = .tagPack ∨ i = .tagUnpack ∨ i = .lenEncode ∨ i = .lenSize) : (regsAfter i r).err = ErrCode.ok.bits := by
  rcases h with rfl | rfl | rfl | rfl <;> rfl

/-- A failed decode clears both results and reports the code of the failed check (R126). -/
theorem regsAfter_lenDecode_error (r : Regs) (e : ErrCode) (h : dec r.bufLen r.window = .error e) :
    regsAfter .lenDecode r = (r.setDecoded 0 0).report e 0x5 := by
  simp only [regsAfter, h, Instr.opcode]

theorem regsAfter_err_of_illegal (i : Instr) (r : Regs) (h : i.hasNotation = false) :
    (regsAfter i r).err = ErrCode.illegalCommand.bits := by
  cases i
  case tagPack | tagUnpack | lenEncode | lenSize | lenDecode => cases h
  all_goals rfl

/-- Settles O18, by the kind of the command and, for LEN_DECODE, by the outcome of `dec`. -/
theorem everyCommandReportsStatus : Obligations.EveryCommandReportsStatus := by
  intro i s
  refine ⟨_, exec_eq i s, regsAfter_lastop i s.regs, regsAfter_err_of_infallible i s.regs, ?_, ?_,
    regsAfter_err_of_illegal i s.regs⟩
  · rintro rfl len n hdec
    rw [State.setRegs_regs, regsAfter_lenDecode_ok s.regs len n hdec]
    rfl
  · rintro rfl e hdec
    rw [State.setRegs_regs, regsAfter_lenDecode_error s.regs e hdec, Regs.report_err]
    refine ⟨rfl, ?_⟩
    rcases dec_error_codes _ _ e hdec with rfl | rfl | rfl <;> decide

theorem ErrCode.bits_injective : Function.Injective ErrCode.bits := by
  intro e f h
  cases e <;> cases f <;> first | rfl | cases h

/-- A code other than `OK` and `ILLEGAL_COMMAND` is reported by LEN_DECODE only, when `dec` answers it. -/
theorem regsAfter_err_eq_iff (i : Instr) (r : Regs) (e : ErrCode) (hok : e ≠ .ok) (hill : e ≠ .illegalCommand) :
    (regsAfter i r).err = e.bits ↔ i = .lenDecode ∧ dec r.bufLen r.window = .error e := by
  have bits_eq : ∀ f : ErrCode, f.bits = e.bits ↔ f = e := fun _ => ErrCode.bits_injective.eq_iff
  cases i
  case lenDecode =>
    cases hdec : dec r.bufLen r.window with
    | ok p => simp [regsAfter_lenDecode_ok r p.1 p.2 hdec, bits_eq, hok.symm]
    | error f => simp [regsAfter_lenDecode_error r f hdec, bits_eq]
  case tagPack | tagUnpack | lenEncode | lenSize => simp [regsAfter, bits_eq, hok.symm]
  all_goals simp [regsAfter, bits_eq, hill.symm]

/-- A code of `dec` that comes exactly if `P` is reported by LEN_DECODE only and exactly if `P`, with both results
cleared (R168). -/
theorem exec_reports_decode_error (i : Instr) (s : State) (e : ErrCode) {P : Prop} (hok : e ≠ .ok)
    (hill : e ≠ .illegalCommand) (cause : dec s.regs.bufLen s.regs.window = .error e ↔ P) :
    ∃ t, exec i s = .next t ∧ (t.regs.err = e.bits ↔ i = .lenDecode ∧ P) ∧
      (t.regs.err = e.bits → t.regs.dlenOut = 0 ∧ t.regs.dconsOut = 0) := by
  have reported := regsAfter_err_eq_iff i s.regs e hok hill
  refine ⟨_, exec_eq i s, reported.trans (and_congr_right fun _ => cause), fun h => ?_⟩
  obtain ⟨rfl, hdec⟩ := reported.1 h
  rw [State.setRegs_regs, regsAfter_lenDecode_error s.regs e hdec]
  exact ⟨rfl, rfl⟩

/-- Settles O22: the code could only come from `dec`, which does not answer it. -/
theorem bufferTooSmallNeverRaised : Obligations.BufferTooSmallNeverRaised := by
  intro i s
  refine ⟨_, exec_eq i s, fun h => ?_⟩
  obtain ⟨_, hdec⟩ := (regsAfter_err_eq_iff i s.regs .bufferTooSmall (by decide) (by decide)).1 h
  rcases dec_error_codes _ _ _ hdec with h | h | h <;> cases h

/-- The byte of the window that `dec` reads first is bits [15:8] of `WIN0` (R41). -/
theorem Regs.window_getD_one (r : Regs) : r.window.getD 1 0 = r.win0.extractLsb' 8 8 := rfl

/-- Settles O36: steps 1 and 4 of R125. -/
theorem truncatedBufferCause : Obligations.TruncatedBufferCause := by
  intro i s
  obtain ⟨truncated, _, _⟩ := dec_eq_error_iff s.regs.bufLen s.regs.window
  rw [Regs.window_getD_one] at truncated
  exact exec_reports_decode_error i s .truncatedBuffer (by decide) (by decide) (truncated.trans (by omega))

/-- Settles O37: step 3 of R125. -/
theorem unsupportedEncodingCause : Obligations.UnsupportedEncodingCause := by
  intro i s
  obtain ⟨_, indefinite, _⟩ := dec_eq_error_iff s.regs.bufLen s.regs.window
  exact exec_reports_decode_error i s .unsupportedEncoding (by decide) (by decide) (indefinite.trans and_comm)

/-- Settles O38: step 5 of R125. -/
theorem lengthOverflowCause : Obligations.LengthOverflowCause := by
  intro i s
  obtain ⟨_, _, overflow⟩ := dec_eq_error_iff s.regs.bufLen s.regs.window
  exact exec_reports_decode_error i s .lengthOverflow (by decide) (by decide) overflow

end Sys2Proof.Machine
end

section
/-! SUPPORT. Reset: every register is 0 (R190), and so is every operand of a command issued right after it (R192). -/

namespace Sys2Proof.Machine

/-! ### What a reset leaves -/

theorem Regs.read_reset (q : Reg) : Regs.reset.read q = 0 := by
  cases q <;> rfl

/-- Settles O1: a reset sets the registers to their reset values, whatever they were. -/
theorem resetClearsEveryRegister : Obligations.ResetClearsEveryRegister :=
  ⟨rfl, fun s rest => ⟨_, step_reset { s with inputs := .reset :: rest } rest rfl, rfl, Regs.read_reset⟩⟩

/-! ### Commands on the reset registers -/

/-- The encoding of length 0 is the one byte `0x00`, and four padding bytes follow it (R122, R123). -/
theorem regsAfter_lenEncode_reset :
    (regsAfter .lenEncode Regs.reset).header = [0, 0, 0, 0, 0] ∧ (regsAfter .lenEncode Regs.reset).hdrLen = 1 := by
  decide

/-- The empty buffer is too short for a header (R125, step 1). -/
theorem regsAfter_lenDecode_reset_err : (regsAfter .lenDecode Regs.reset).err = 1 := by
  decide

/-! ### What tells that a command has run -/

theorem opcode_ne_zero_of_hasNotation (i : Instr) (h : i.hasNotation = true) : i.opcode ≠ 0 := by
  cases i
  case illegal0 => cases h
  all_goals decide

theorem ne_zero_of_one_le_toNat {w : Nat} (x : BitVec w) (h : 1 ≤ x.toNat) : x ≠ 0 :=
  (BitVec.ne_of_lt h).symm

/-- A header has at least one byte, so its length is not the reset value of `HDR_LEN`. -/
theorem regsAfter_lenEncode_hdrLen_ne_zero (r : Regs) : (regsAfter .lenEncode r).hdrLen ≠ 0 :=
  ne_zero_of_one_le_toNat _ ((hdrsize_bounds r.lenIn).1.trans_eq (regsAfter_lenEncode_hdrLen r).symm)

theorem regsAfter_lenSize_sizeOut_ne_zero (r : Regs) : (regsAfter .lenSize r).sizeOut ≠ 0 :=
  ne_zero_of_one_le_toNat _ ((hdrsize_bounds r.lenIn).1.trans_eq (regsAfter_lenSize_sizeOut r).symm)

/-- A successful decode consumes a byte (O39), so its count is not the reset value of `DCONS_OUT`. -/
theorem exec_lenDecode_dconsOut_ne_zero (s : State) :
    ∃ t, exec .lenDecode s = .next t ∧ (t.regs.err = 0 → t.regs.dconsOut ≠ 0) := by
  obtain ⟨hvisible, _⟩ := decodeFailureIsVisible
  obtain ⟨t, hexec, hsuccess, _⟩ := hvisible s
  exact ⟨t, hexec, fun herr => ne_zero_of_one_le_toNat _ (hsuccess.1 herr)⟩

/-- Settles O2: four commands computed on the reset registers, and from every state a count of at least one byte. -/
theorem commandsRightAfterReset : Obligations.CommandsRightAfterReset := by
  refine ⟨fun s hs => ?_, opcode_ne_zero_of_hasNotation, fun s =>
    ⟨⟨_, exec_eq .lenEncode s, regsAfter_lenEncode_hdrLen_ne_zero s.regs⟩,
      ⟨_, exec_eq .lenSize s, regsAfter_lenSize_sizeOut_ne_zero s.regs⟩, exec_lenDecode_dconsOut_ne_zero s⟩⟩
  have hexec : ∀ i, exec i s = .next (s.setRegs (regsAfter i Regs.reset)) := fun i =>
    (exec_eq i s).trans (by rw [hs]; rfl)
  exact ⟨fun q => hs ▸ Regs.read_reset q, ⟨_, hexec .tagPack, rfl⟩, ⟨_, hexec .lenEncode, regsAfter_lenEncode_reset⟩,
    ⟨_, hexec .lenSize, rfl⟩, ⟨_, hexec .lenDecode, regsAfter_lenDecode_reset_err⟩⟩

end Sys2Proof.Machine
end
